-- ==== Sys2Proof/Word.lean ====
section
/-! DEFINITION. The data types of the codec: words, records and the stimuli of the environment (spec/10_state.md R9 to R12, spec/70_reset_and_hazards.md R84). -/

namespace Sys2Proof

/-- A byte of a serialised word (20_memory.md R23). -/
abbrev Byte := BitVec 8

/-- The 16-bit unsigned packed representation of one chunk record (10_state.md R10). -/
abbrev PackedWord := BitVec 16

/-- What one encoder operand port carries: `W_IN` = 16 bits (00_scope.md R5, 10_state.md R11). -/
abbrev PortValue := BitVec 16

/-- The logical, unpacked form of one chunk: three unsigned integers of any size, in range or not (10_state.md R9). -/
structure ChunkRecord where
  biomeId : Nat
  centerX : Nat
  centerY : Nat
deriving DecidableEq, Repr

/-- What the three decoder output ports carry together, at exactly the field widths (10_state.md R12). -/
structure DecodedRecord where
  biomeId : BitVec 4
  centerX : BitVec 6
  centerY : BitVec 6
deriving DecidableEq, Repr

/-- What feeds the three encoder input ports at one instant (10_state.md R11, 70_reset_and_hazards.md R84). -/
inductive EncSource where
  /-- The environment leaves the three inputs as they are and takes no sample of `enc_word`. -/
  | held
  /-- The environment drives the three inputs together and samples `enc_word`. -/
  | driven (biomeId centerX centerY : PortValue)
  /-- The zero-extended decoder outputs are connected to the inputs, and the environment samples `enc_word`. -/
  | fromDecoder
deriving DecidableEq, Repr

/-- What feeds `dec_word` at one instant (10_state.md R12, 70_reset_and_hazards.md R84). -/
inductive DecSource where
  /-- The environment leaves `dec_word` as it is and takes no sample of the decoder outputs. -/
  | held
  /-- The environment drives `dec_word` and samples the decoder outputs. -/
  | driven (word : PackedWord)
  /-- `enc_word` is connected to `dec_word`, and the environment samples the decoder outputs. -/
  | fromEncoder
deriving DecidableEq, Repr

/-- What the environment does to the two independent port groups at one instant (10_state.md R21). -/
structure Stimulus where
  encoder : EncSource
  decoder : DecSource
deriving DecidableEq, Repr

end Sys2Proof
end

