-- ==== Sys2Proof/Syntax.lean ====
section
/-! DEFINITION. The operations of the block: one constructor for each row of spec/opcode_table.json (spec/30_encoding.md R37). -/

namespace Sys2Proof

/-- An operation with its operands, the values on the input ports of its group (R44's transaction notation without the observed part). -/
inductive Instr where
  /-- ENCODE, operand format ENC (30_encoding.md R38): three port values, in range or not. -/
  | encode (biomeId centerX centerY : PortValue)
  /-- DECODE, operand format DEC (30_encoding.md R39): one packed word. -/
  | decode (word : PackedWord)
deriving DecidableEq, Repr

end Sys2Proof
end

