-- ==== Sys2Proof/WellFormed.lean ====
section
/-! DEFINITION. Which operations and which stimuli the environment may present. -/

namespace Sys2Proof

/-- Every operation is well formed: there is no illegal or reserved operand of either (30_encoding.md R41, 40_encode.md R50, 41_decode.md R57). -/
def Instr.wellFormed : Instr → Bool
  | .encode _ _ _ => true
  | .decode _ => true

/-- The environment may connect either group's outputs to the other group's inputs, but not both at once: that closes a loop with no storage element in it (70_reset_and_hazards.md R84; 93_implementation_defined.md U7). -/
def Stimulus.wellFormed (st : Stimulus) : Bool :=
  match st.encoder, st.decoder with
  | .fromDecoder, .fromEncoder => false
  | _, _ => true

end Sys2Proof
end

