-- ==== Sys2Proof/Decode.lean ====
section
/-! DEFINITION. Reading and writing an operation as bits. The block has no instruction word (spec/30_encoding.md R37); "the encoding of each line is its stimulus: the values driven on the input ports" (spec/95_test_vectors.md Part 3). A stimulus is written here as its port values in the order of the record, each low byte first (DESIGN CHOICE, log entry 5; safe: no port of the block carries these bytes). The format, which names the port group, is told by the number of port values, never by a bit of a word. -/

namespace Sys2Proof

/-- Why a byte string is no stimulus of either operand format. -/
inductive DecodeReject where
  /-- Neither format has this many bytes: ENC has three port values, DEC has one (R38, R39). Raised by `decodeStimulus`; safe. -/
  | noSuchFormat (bytes : Nat)
deriving DecidableEq, Repr

/-- A word from its bytes: the byte at the lower offset holds bits 7 to 0 (20_memory.md R23). -/
def wordOfBytes (low high : Byte) : BitVec 16 := high ++ low

/-- A word as two bytes, `w[7:0]` at the lower offset (20_memory.md R23). -/
def bytesOfWord (w : BitVec 16) : List Byte := [w.extractLsb' 0 8, w.extractLsb' 8 8]

/-- The operation whose port values the bytes are. Total; a byte string of no format is rejected by name. -/
def decodeStimulus : List Byte → Except DecodeReject Instr
  | [w0, w1] => .ok (.decode (wordOfBytes w0 w1))
  | [b0, b1, x0, x1, y0, y1] => .ok (.encode (wordOfBytes b0 b1) (wordOfBytes x0 x1) (wordOfBytes y0 y1))
  | bs => .error (.noSuchFormat bs.length)

/-- The stimulus of an operation: its port values in the order `biome_id`, `center_x`, `center_y` (10_state.md R9). -/
def encodeStimulus : Instr → List Byte
  | .encode b x y => bytesOfWord b ++ bytesOfWord x ++ bytesOfWord y
  | .decode w => bytesOfWord w

/-- The low `n` bytes of a number, lowest first. -/
def bytesOfNat : Nat → Nat → List Byte
  | 0, _ => []
  | n + 1, w => BitVec.ofNat 8 w :: bytesOfNat n (w / 256)

/-- How many bytes the format has whose bits are the given number of bits, with zeros above: one port value of two bytes, or three of them. -/
def formatBytes (nbits : Nat) : Nat :=
  if nbits ≤ 16 then 2 else 6

/-- The operation whose stimulus has the bits `w`, bit 0 the lowest bit of the first port value (the host's numbering). Up to 16 bits are the one word of DEC; more, up to 48, are the three port values of ENC; no format has more (DESIGN CHOICE, log entry 6). -/
def decodeTableWord (nbits w : Nat) : Option Instr :=
  if nbits = 0 ∨ 48 < nbits then none
  else (decodeStimulus (bytesOfNat (formatBytes nbits) (w % 2 ^ nbits))).toOption

end Sys2Proof
end

