-- ==== Sys2Proof/Machine/Operands.lean ====
section
/-! DEFINITION. The operand formats ENC and DEC: the masks and shift counts of the three fields, the truncation of an encoder operand and the selection of a field of a word (spec/30_encoding.md R36, R38, R39). -/

namespace Sys2Proof.Machine

/-- `BIOME_SHIFT` (00_scope.md R5). -/
def biomeShift : Nat := 12

/-- `X_SHIFT` (00_scope.md R5); `center_y` is not shifted. -/
def xShift : Nat := 6

/-- `BIOME_MASK`, `1111_000000_000000` (30_encoding.md R36). -/
def biomeMask : PackedWord := 0xF000#16

/-- `X_MASK`, `0000_111111_000000` (30_encoding.md R36). -/
def xMask : PackedWord := 0x0FC0#16

/-- `Y_MASK`, `0000_000000_111111` (30_encoding.md R36). -/
def yMask : PackedWord := 0x003F#16

/-- `trunc_4` of a `biome_id` operand of any width: its bits 3 to 0 (40_encode.md R46). -/
def truncBiome {n : Nat} (b : BitVec n) : BitVec 4 := b.setWidth 4

/-- `trunc_6` of a coordinate operand of any width: its bits 5 to 0 (40_encode.md R46). -/
def truncCoord {n : Nat} (c : BitVec n) : BitVec 6 := c.setWidth 6

/-- The field `biome_id` of a word: the mask first, then the logical right shift (41_decode.md R55, R56). -/
def selectBiome (w : PackedWord) : BitVec 4 := ((w &&& biomeMask) >>> biomeShift).setWidth 4

/-- The field `center_x` of a word (41_decode.md R55). -/
def selectX (w : PackedWord) : BitVec 6 := ((w &&& xMask) >>> xShift).setWidth 6

/-- The field `center_y` of a word, not shifted (41_decode.md R55). -/
def selectY (w : PackedWord) : BitVec 6 := (w &&& yMask).setWidth 6

/-- A decoder output as a consumer wider than it sees it: zero-extended, never sign-extended (10_state.md R12, 30_encoding.md R39). -/
def zextPort {n : Nat} (v : BitVec n) : PortValue := v.setWidth 16

end Sys2Proof.Machine
end

