-- ==== Sys2Proof/Machine/State.lean ====
section
/-! DEFINITION. The state of one step. The block itself holds none (spec/10_state.md R8, R14 to R20); the fields are the environment's: what it drives on the four input ports, what it has still to present, and what it has observed (log entries 1 to 4). The outputs are not state (R20): they are views of the input ports, in Machine/Ops.lean. -/

namespace Sys2Proof.Machine

/-- The input ports as the environment drives them, and the environment's own schedule and observations. -/
structure State where
  /-- `enc_biome_id` (R11). -/
  encBiomeId : PortValue
  /-- `enc_center_x` (R11). -/
  encCenterX : PortValue
  /-- `enc_center_y` (R11). -/
  encCenterY : PortValue
  /-- `dec_word` (R12). -/
  decWord : PackedWord
  /-- The stimuli the environment has still to present, the next one first (R15, 20_memory.md R31; log entry 2). -/
  schedule : List Stimulus
  /-- What the environment has sampled on `enc_word`, oldest first (30_encoding.md R44; log entry 3). -/
  encObserved : List PackedWord
  /-- What the environment has sampled on the decoder outputs, oldest first (30_encoding.md R44; log entry 3). -/
  decObserved : List DecodedRecord
deriving DecidableEq, Repr

/-- No fault exists: neither operation raises an exception or reports an error, for any operand (60_exceptions.md R69 to R71). The type has no constructor, so none can be raised (log entry 15). -/
inductive Fault where
deriving DecidableEq, Repr

/-- Why a step can be refused. -/
inductive Refusal where
  /-- Raised by an arm of `exec` for an operation without a meaning; no arm raises it. Safe. -/
  | notModelled (mnemonic : String)
  /-- Raised by `present` when both loopbacks are connected at once: a loop with no storage element has no defined value and is outside the spec (70_reset_and_hazards.md R84; 93_implementation_defined.md U7, treatment `refuse`; log entry 10). Safe. -/
  | combinationalLoop
deriving DecidableEq, Repr

/-- The state from which a run starts. The block has no reset and no reset value (70_reset_and_hazards.md R80); the environment has presented nothing and drives zeros (DESIGN CHOICE, log entry 4; unsafe: no statement may rest on the zeros). -/
def State.reset : State where
  encBiomeId := 0
  encCenterX := 0
  encCenterY := 0
  decWord := 0
  schedule := []
  encObserved := []
  decObserved := []

end Sys2Proof.Machine
end

