-- ==== Sys2Proof/Machine/Ops.lean ====
section
/-! DEFINITION. The two functions of the block, the output ports as views of the input ports, and the acts of the environment on the ports: driving a group, sampling its outputs (spec/40_encode.md R45, spec/41_decode.md R54, spec/30_encoding.md R44). There is no memory operation (R22) and no taking of an exception (60_exceptions.md R74): the block has neither. -/

namespace Sys2Proof.Machine

/-- The function `encode`, for operands of any width: truncate each field, place it, and OR the three (40_encode.md R45 to R47). The truncated value is widened to 16 bits before it is shifted (R48, decision D24). -/
def packWord {n : Nat} (b x y : BitVec n) : PackedWord :=
  ((truncBiome b).setWidth 16 <<< biomeShift) ||| ((truncCoord x).setWidth 16 <<< xShift) |||
    (truncCoord y).setWidth 16

/-- The function `decode` (41_decode.md R54). -/
def unpackWord (w : PackedWord) : DecodedRecord :=
  ⟨selectBiome w, selectX w, selectY w⟩

/-- `encode` on a record of unbounded naturals, by the last line of R45: `b' * 4096 + x' * 64 + y'` (00_scope.md R5). -/
def recordWord (r : ChunkRecord) : PackedWord :=
  BitVec.ofNat 16 (r.biomeId % 16 * 4096 + r.centerX % 64 * 64 + r.centerY % 64)

/-- A decoded record as a record of unsigned integers; records held at different widths are compared so (10_state.md R12). -/
def recordOfDecoded (d : DecodedRecord) : ChunkRecord :=
  ⟨d.biomeId.toNat, d.centerX.toNat, d.centerY.toNat⟩

/-- The record that three operand ports carry. -/
def recordOfPorts {n : Nat} (b x y : BitVec n) : ChunkRecord := ⟨b.toNat, x.toNat, y.toNat⟩

/-- Each field reduced modulo its value space, 2^4 and 2^6 (42_laws.md R62, R67). -/
def normRecord (r : ChunkRecord) : ChunkRecord :=
  ⟨r.biomeId % 16, r.centerX % 64, r.centerY % 64⟩

/-- The output port `enc_word`: a standing function of the encoder inputs (10_state.md R20, 70_reset_and_hazards.md R83). -/
def State.encWord (s : State) : PackedWord := packWord s.encBiomeId s.encCenterX s.encCenterY

/-- The three decoder output ports together. -/
def State.decRecord (s : State) : DecodedRecord := unpackWord s.decWord

/-- The output port `dec_biome_id` (10_state.md R12). -/
def State.decBiomeId (s : State) : BitVec 4 := s.decRecord.biomeId

/-- The output port `dec_center_x` (10_state.md R12). -/
def State.decCenterX (s : State) : BitVec 6 := s.decRecord.centerX

/-- The output port `dec_center_y` (10_state.md R12). -/
def State.decCenterY (s : State) : BitVec 6 := s.decRecord.centerY

/-- The environment drives the three encoder inputs together (70_reset_and_hazards.md R86). -/
def driveEncoder (b x y : PortValue) (s : State) : State :=
  { s with encBiomeId := b, encCenterX := x, encCenterY := y }

/-- The environment drives `dec_word`. -/
def driveDecoder (w : PackedWord) (s : State) : State :=
  { s with decWord := w }

/-- The environment samples `enc_word`, the inputs held; sampling has no effect on the block (20_memory.md R25). -/
def sampleEncoder (s : State) : State :=
  { s with encObserved := s.encObserved ++ [s.encWord] }

/-- The environment samples the three decoder outputs, the input held. -/
def sampleDecoder (s : State) : State :=
  { s with decObserved := s.decObserved ++ [s.decRecord] }

/-- One outcome after another: the second act happens in the state the first leaves. -/
def andThen (o : Host.Outcome State Fault Refusal) (f : State → Host.Outcome State Fault Refusal) :
    Host.Outcome State Fault Refusal :=
  match o with
  | .next s => f s
  | .fault r => .fault r
  | .refused r => .refused r

end Sys2Proof.Machine
end

