-- ==== Sys2Proof/Machine/Decoder.lean ====
section
/-! DEFINITION. The meaning of DECODE (spec/41_decode.md R54). -/

namespace Sys2Proof.Machine

/-- `DECODE w -> b, x, y`: drive `dec_word` and observe the three decoder outputs (30_encoding.md R44). Any operand is accepted; nothing is raised (R57). -/
def execDecode (w : PackedWord) (s : State) : Host.Outcome State Fault Refusal :=
  .next (sampleDecoder (driveDecoder w s))

end Sys2Proof.Machine
end

