-- ==== Sys2Proof/Machine/Encoder.lean ====
section
/-! DEFINITION. The meaning of ENCODE (spec/40_encode.md R45). -/

namespace Sys2Proof.Machine

/-- `ENCODE b, x, y -> w`: drive the three encoder inputs and observe `enc_word` (30_encoding.md R44). Any operand is accepted; nothing is raised (R50). -/
def execEncode (b x y : PortValue) (s : State) : Host.Outcome State Fault Refusal :=
  .next (sampleEncoder (driveEncoder b x y s))

end Sys2Proof.Machine
end

