-- ==== Sys2Proof/Machine/Dispatch.lean ====
section
/-! DEFINITION. One arm for each operation of spec/opcode_table.json. -/

namespace Sys2Proof.Machine

/-- The effect of one operation. -/
def exec (i : Instr) (s : State) : Host.Outcome State Fault Refusal :=
  match i with
  | .encode b x y => Sys2Proof.Machine.execEncode b x y s
  | .decode w => Sys2Proof.Machine.execDecode w s

end Sys2Proof.Machine
end

