-- ==== Sys2Proof/Machine/Present.lean ====
section
/-! DEFINITION. What one instant does: the environment presents a stimulus to the two port groups (spec/10_state.md R21, spec/70_reset_and_hazards.md R84), and the schedules by which the environment uses the block for a grid (spec/20_memory.md R31). -/

namespace Sys2Proof.Machine

/-- The encoder group's part of an instant. When the decoder outputs are connected to the encoder inputs they arrive zero-extended (R84, 10_state.md R12). -/
def presentEncoder (src : EncSource) (s : State) : Host.Outcome State Fault Refusal :=
  match src with
  | .held => .next s
  | .driven b x y => exec (.encode b x y) s
  | .fromDecoder => exec (.encode (zextPort s.decBiomeId) (zextPort s.decCenterX) (zextPort s.decCenterY)) s

/-- The decoder group's part of an instant. -/
def presentDecoder (src : DecSource) (s : State) : Host.Outcome State Fault Refusal :=
  match src with
  | .held => .next s
  | .driven w => exec (.decode w) s
  | .fromEncoder => exec (.decode s.encWord) s

/-- One instant: both groups answer at once. A single loopback is feed-forward, so the group that feeds the other is settled first; without a loopback the order makes no difference (R21; log entry 9). Both loopbacks at once have no defined value (R84). -/
def present (st : Stimulus) (s : State) : Host.Outcome State Fault Refusal :=
  match st.encoder, st.decoder with
  | .fromDecoder, .fromEncoder => .refused .combinationalLoop
  | .fromDecoder, dec => andThen (presentDecoder dec s) (presentEncoder .fromDecoder)
  | enc, dec => andThen (presentEncoder enc s) (presentDecoder dec)

/-- The stimulus that presents one operation alone, the other group held. -/
def stimulusOf : Instr → Stimulus
  | .encode b x y => ⟨.driven b x y, .held⟩
  | .decode w => ⟨.held, .driven w⟩

/-- The cells of a grid in row-major order, `x` the fast-varying index (20_memory.md R30, R31). -/
def rowMajor {α : Type} (width height : Nat) (cell : Nat → Nat → α) : List α :=
  (List.range height).flatMap fun y => (List.range width).map fun x => cell x y

/-- What the environment presents to pack a list of records: one ENCODE each, each field as far as the port carries it (20_memory.md R31). -/
def packSchedule (records : List ChunkRecord) : List Stimulus :=
  records.map fun r =>
    stimulusOf (.encode (BitVec.ofNat 16 r.biomeId) (BitVec.ofNat 16 r.centerX) (BitVec.ofNat 16 r.centerY))

/-- What the environment presents to unpack a list of words: one DECODE each, in the same order (20_memory.md R31). -/
def unpackSchedule (words : List PackedWord) : List Stimulus :=
  words.map fun w => stimulusOf (.decode w)

end Sys2Proof.Machine
end

