-- ==== Sys2Proof/Machine/Step.lean ====
section
/-! DEFINITION. One step: the environment presents the next stimulus of its schedule. The block fetches no instruction and has no program counter (spec/10_state.md R15); the head of the schedule takes their place (log entry 2). -/

namespace Sys2Proof.Machine

/-- The environment presents its next stimulus. With nothing left to present it holds every input, and nothing changes (log entry 7). -/
def step (s : State) : Host.Outcome State Fault Refusal :=
  match s.schedule with
  | [] => .next s
  | st :: rest => present st { s with schedule := rest }

/-- The state in which the operation whose stimulus has the bits `w` is presented next, before what is scheduled already. Bits that are no stimulus add nothing. -/
def State.withFetchWord (s : State) (nbits w : Nat) : State :=
  match decodeTableWord nbits w with
  | some i => { s with schedule := stimulusOf i :: s.schedule }
  | none => s

end Sys2Proof.Machine
end

