-- ==== Sys2Proof/Config.lean ====
section
/-! DEFINITION. The widths of the block, by the spec's names (spec/00_scope.md R4, R5). The word and field widths are fixed by the source and are no parameters (R4); `wIn` is the spec's own choice (92_eei_decisions.md D4), and no function of the codec depends on it: `packWord` takes operands of any width. The types `PackedWord`, `PortValue` and `DecodedRecord` are written with these numbers, since a width that is a name costs every proof a cast; `Obligations.ConstantsOfTheLayout` ties the two. The model has no free value: no operation has an undefined result. -/

namespace Sys2Proof.Config

/-- `WORD_W`: bits of a PackedWord. -/
abbrev wordW : Nat := 16

/-- `BIOME_W`: significant bits of `biome_id`. -/
abbrev biomeW : Nat := 4

/-- `COORD_W`: significant bits of each of `center_x` and `center_y`. -/
abbrev coordW : Nat := 6

/-- `W_IN`: bits of each encoder operand port. -/
abbrev wIn : Nat := 16

end Sys2Proof.Config
end

