-- ==== Sys2Proof/Machine/Flags.lean ====
section
/-! DEFINITION. The block has no flag and no truncation indicator, and a model must not add one (spec/10_state.md R16). What R16 leaves to the environment is here: the comparison of a record with the valid ranges. Nothing in the machine calls it. -/

namespace Sys2Proof.Machine

/-- All three fields lie in their valid ranges (10_state.md R9): "within their declared bit ranges". -/
abbrev inRange (r : ChunkRecord) : Prop :=
  r.biomeId ≤ 15 ∧ r.centerX ≤ 63 ∧ r.centerY ≤ 63

end Sys2Proof.Machine
end

