-- ==== Sys2Proof/Safety.lean ====
section
/-! DEFINITION. What counts as a safe state and a completed run, in the terms the statements use. -/

namespace Sys2Proof.Machine

/-- The transaction `ENCODE b, x, y -> w` (30_encoding.md R44): presented in the state, the operation completes and `w` is on `enc_word`. -/
def encodesTo (s : State) (b x y : PortValue) (w : PackedWord) : Prop :=
  ∃ t, exec (.encode b x y) s = .next t ∧ t.encWord = w

/-- The transaction `DECODE w -> b, x, y` (30_encoding.md R44): presented in the state, the operation completes and the fields are on the decoder outputs. -/
def decodesTo (s : State) (w : PackedWord) (b : BitVec 4) (x y : BitVec 6) : Prop :=
  ∃ t, exec (.decode w) s = .next t ∧ t.decBiomeId = b ∧ t.decCenterX = x ∧ t.decCenterY = y

/-- `k` steps, one after another, on the model's own state type; `Laws/Run.lean` shows that it is the host's run of `core`. -/
def run : Nat → State → Host.Outcome State Fault Refusal
  | 0, s => .next s
  | k + 1, s => andThen (step s) (run k)

/-- The environment keeps its duty in everything it has still to present: no stimulus connects both loopbacks (spec/70_reset_and_hazards.md R84). -/
abbrev scheduleOk (s : State) : Prop := ∀ st ∈ s.schedule, st.wellFormed = true

/-- What the environment sampled last on each group is what the outputs of that group still show: the inputs are held between operations, and an output is a standing function of its inputs (R83, R86; that the inputs are held is log entry 8). -/
abbrev samplesStand (s : State) : Prop :=
  (∀ w, s.encObserved.getLast? = some w → w = s.encWord) ∧
  (∀ d, s.decObserved.getLast? = some d → d = s.decRecord)

/-- The operation is an ENCODE: it uses the encoder port group and no other (30_encoding.md R37). -/
def isEncode : Instr → Bool
  | .encode _ _ _ => true
  | .decode _ => false

/-- The words that a list of operations gives on `enc_word`, each from its own operands alone (40_encode.md R52). -/
def encodeResults (is : List Instr) : List PackedWord :=
  is.filterMap fun
    | .encode b x y => some (packWord b x y)
    | .decode _ => none

/-- The records that a list of operations gives on the decoder outputs, each from its own operand alone (41_decode.md R59). -/
def decodeResults (is : List Instr) : List DecodedRecord :=
  is.filterMap fun
    | .encode _ _ _ => none
    | .decode w => some (unpackWord w)

end Sys2Proof.Machine
end

