-- ==== Sys2Proof/Certificates/Slice0/Obligations.lean ====
section
/-! DEFINITION. The statements for the provers. Each docstring names the rule of spec/ it formalises, or says what it is derived from; R<n> is a rule of spec/, D<n> a decision the spec marks as its own, 'log entry' a file of notes/assumptions/. -/

open Sys2Proof Sys2Proof.Machine

/-! ### The layout of the word -/

/-- The widths, shift counts and masks are those of R5, the three fields fill the word, and the ranges and moduli of the fields are powers of their widths. The width of an operand port is the spec's own decision D4 (R5: "so this value is the spec's own choice"). -/
def Obligations.ConstantsOfTheLayout : Prop :=
  Config.wordW = 16 ∧ Config.biomeW = 4 ∧ Config.coordW = 6 ∧ biomeShift = 12 ∧ xShift = 6 ∧
  biomeMask = 0b1111000000000000#16 ∧ xMask = 0b0000111111000000#16 ∧ yMask = 0b0000000000111111#16 ∧
  Config.wIn = 16 ∧ Config.biomeW + Config.coordW + Config.coordW = Config.wordW ∧
  (∀ r : ChunkRecord, inRange r ↔
    r.biomeId < 2 ^ Config.biomeW ∧ r.centerX < 2 ^ Config.coordW ∧ r.centerY < 2 ^ Config.coordW) ∧
  (∀ r : ChunkRecord, normRecord r =
    ⟨r.biomeId % 2 ^ Config.biomeW, r.centerX % 2 ^ Config.coordW, r.centerY % 2 ^ Config.coordW⟩)

/-- R36: the set bits of the three masks are exactly the bits of the three fields; the masks are pairwise disjoint and cover the word; each shift count is the lowest bit position of its field; ENCODE and DECODE use the same masks and shift counts. -/
def Obligations.MasksPartitionTheWord : Prop :=
  (∀ i, biomeMask.getLsbD i = decide (12 ≤ i ∧ i ≤ 15)) ∧
  (∀ i, xMask.getLsbD i = decide (6 ≤ i ∧ i ≤ 11)) ∧
  (∀ i, yMask.getLsbD i = decide (i ≤ 5)) ∧
  biomeMask &&& xMask = 0 ∧ biomeMask &&& yMask = 0 ∧ xMask &&& yMask = 0 ∧
  biomeMask ||| xMask ||| yMask = 0xFFFF#16 ∧
  biomeMask.toNat = 61440 ∧ xMask.toNat = 4032 ∧ yMask.toNat = 63 ∧
  biomeMask.toNat = 15 * 4096 ∧ xMask.toNat = 63 * 64 ∧
  biomeShift = 12 ∧ xShift = 6 ∧
  (∀ (n : Nat) (b x y : BitVec n), packWord b x y =
    ((b.setWidth 16 <<< biomeShift) &&& biomeMask) ||| ((x.setWidth 16 <<< xShift) &&& xMask) |||
      (y.setWidth 16 &&& yMask)) ∧
  (∀ w : PackedWord,
    (unpackWord w).biomeId.setWidth 16 = (w &&& biomeMask) >>> biomeShift ∧
    (unpackWord w).centerX.setWidth 16 = (w &&& xMask) >>> xShift ∧
    (unpackWord w).centerY.setWidth 16 = w &&& yMask)

/-- The layout of the word and its value for in-range fields (30_encoding.md section 1; the value form is the spec's own derivation). -/
def Obligations.WordLayout : Prop :=
  ∀ (n : Nat) (b x y : BitVec n),
    (packWord b x y).extractLsb' 12 4 = b.setWidth 4 ∧
    (packWord b x y).extractLsb' 6 6 = x.setWidth 6 ∧
    (packWord b x y).extractLsb' 0 6 = y.setWidth 6 ∧
    (inRange (recordOfPorts b x y) →
      (packWord b x y).toNat = b.toNat * 4096 + x.toNat * 64 + y.toNat)

/-! ### ENCODE -/

/-- From R45: for every state and every operands ENCODE completes, `enc_word` is the word of R45 in its three forms, and then the corner cases and the worked example of R45. That the operands are driven on the encoder ports is R44 (decision D15). That what the decoder group carries and shows is as before is no sentence of R45: it rests on R44, on R21 (the spec's own derivation, decision D1) and on log entry 8 (a group's inputs are held until driven again, the model's choice). -/
def Obligations.EncodeComputesTheWord : Prop :=
  (∀ (s : State) (b x y : PortValue), ∃ t, exec (.encode b x y) s = .next t ∧
    t.encBiomeId = b ∧ t.encCenterX = x ∧ t.encCenterY = y ∧
    t.encWord = ((b.setWidth 4).setWidth 16 <<< 12) ||| ((x.setWidth 6).setWidth 16 <<< 6) |||
      (y.setWidth 6).setWidth 16 ∧
    t.encWord = b.setWidth 4 ++ x.setWidth 6 ++ y.setWidth 6 ∧
    t.encWord.toNat = b.toNat % 16 * 4096 + x.toNat % 64 * 64 + y.toNat % 64 ∧
    t.decWord = s.decWord ∧ t.decRecord = s.decRecord) ∧
  (∀ s : State,
    encodesTo s 0 0 0 0x0000 ∧ encodesTo s 15 63 63 0xFFFF ∧ encodesTo s 16 0 0 0x0000 ∧
    encodesTo s 0 64 0 0x0000 ∧ encodesTo s 0 0 64 0x0000 ∧ encodesTo s 0xFFFF 0xFFFF 0xFFFF 0xFFFF ∧
    encodesTo s 255 255 255 0xFFFF ∧ encodesTo s 9 9 9 0x9249 ∧ encodesTo s 5 10 20 0x5294)

/-- ENCODE completes in every state with every operands, and its next state is this one: the operands on the encoder ports and `enc_word` sampled. The list of samples is the model's own field (log entry 3), and that the decoder group keeps its input is log entry 8. -/
def Obligations.EncodeCompletesWithItsEffect : Prop :=
  ∀ (s : State) (b x y : PortValue),
    exec (.encode b x y) s = .next { s with
      encBiomeId := b, encCenterX := x, encCenterY := y,
      encObserved := s.encObserved ++ [b.setWidth 4 ++ x.setWidth 6 ++ y.setWidth 6] }

/-- The frame of ENCODE: the decoder port group, its samples and the schedule are as before, and the earlier samples of `enc_word` stay. The outputs rest on 10_state.md section 6 (the spec's own derivation), the held input on log entry 8, the samples and the schedule on log entries 2 and 3. The block has no register, flag, memory or program counter to name here (10_state.md R14 to R18). -/
def Obligations.EncodeFrame : Prop :=
  ∀ (s t : State) (b x y : PortValue), exec (.encode b x y) s = .next t →
    t.decWord = s.decWord ∧ t.decBiomeId = s.decBiomeId ∧ t.decCenterX = s.decCenterX ∧
    t.decCenterY = s.decCenterY ∧ t.decObserved = s.decObserved ∧ t.schedule = s.schedule ∧
    ∃ w, t.encObserved = s.encObserved ++ [w]

/-- R46: each operand, of any width, is reduced to its field width, modulo 2^n and not by saturation, and an in-range operand is not changed; the word is that of the reduced operands, and what decodes from it are the reduced operands. -/
def Obligations.OperandTruncation : Prop :=
  (∀ (n : Nat) (v : BitVec n), (truncBiome v).toNat = v.toNat % 16 ∧ (truncCoord v).toNat = v.toNat % 64) ∧
  (∀ (n : Nat) (v : BitVec n), (∀ i < 4, (truncBiome v).getLsbD i = v.getLsbD i) ∧
    (∀ i < 6, (truncCoord v).getLsbD i = v.getLsbD i)) ∧
  (∀ (n : Nat) (v : BitVec n), (v.toNat < 16 → (truncBiome v).toNat = v.toNat) ∧
    (v.toNat < 64 → (truncCoord v).toNat = v.toNat)) ∧
  truncBiome (16 : PortValue) = 0 ∧ truncCoord (64 : PortValue) = 0 ∧ truncCoord (100 : PortValue) = 36 ∧
  (∀ (n : Nat) (b x y : BitVec n),
    packWord b x y = packWord (zextPort (truncBiome b)) (zextPort (truncCoord x)) (zextPort (truncCoord y)) ∧
    unpackWord (packWord b x y) = ⟨truncBiome b, truncCoord x, truncCoord y⟩)

/-- The three placed values occupy disjoint bits, so the OR is the sum and the concatenation; the result fits in 16 bits, and 63 + 1 in `center_y` gives 0 and does not increment `center_x` (40_encode.md section 2; the sum and concatenation are the spec's own derivation). -/
def Obligations.PlacementWithoutCarry : Prop :=
  ∀ (n : Nat) (b x y : BitVec n),
    packWord b x y = b.setWidth 4 ++ x.setWidth 6 ++ y.setWidth 6 ∧
    (packWord b x y).toNat = b.toNat % 16 * 4096 + x.toNat % 64 * 64 + y.toNat % 64 ∧
    (packWord b x y).toNat ≤ 65535 ∧
    (y.toNat = 63 → packWord b x (y + 1) = b.setWidth 4 ++ x.setWidth 6 ++ (0 : BitVec 6))

/-- Masking before the shift, after it, or both gives the same placed value, for operands of any width and a shifted value held in any `W` of 16 bits or more; in 8 bits it does not (40_encode.md section 2, the equivalence is the spec's own derivation; decision D24). -/
def Obligations.MaskOrdersAgree : Prop :=
  (∀ (n W : Nat) (v : BitVec n), 16 ≤ W →
    (v.setWidth W <<< 12) &&& 0xF000#W = (truncBiome v).setWidth W <<< 12 ∧
    ((truncBiome v).setWidth W <<< 12) &&& 0xF000#W = (truncBiome v).setWidth W <<< 12 ∧
    (v.setWidth W <<< 6) &&& 0x0FC0#W = (truncCoord v).setWidth W <<< 6 ∧
    ((truncCoord v).setWidth W <<< 6) &&& 0x0FC0#W = (truncCoord v).setWidth W <<< 6 ∧
    v.setWidth W &&& 0x003F#W = (truncCoord v).setWidth W) ∧
  (∀ (n : Nat) (v : BitVec n), v.setWidth 8 <<< 12 = 0#8)

/-- Every bit of `enc_word` is a copy of exactly one encoder input bit, in every state (40_encode.md section 2; the spec's own derivation). -/
def Obligations.EncoderIsWiring : Prop :=
  ∀ s : State,
    (∀ i < 4, s.encWord.getLsbD (12 + i) = s.encBiomeId.getLsbD i) ∧
    (∀ i < 6, s.encWord.getLsbD (6 + i) = s.encCenterX.getLsbD i) ∧
    (∀ i < 6, s.encWord.getLsbD i = s.encCenterY.getLsbD i)

/-- Two operand triples give the same word exactly when they agree in the used bits (40_encode.md section 2 and 42_laws.md section 2; the spec's own derivation). -/
def Obligations.IgnoredOperandBits : Prop :=
  ∀ (n m : Nat) (b x y : BitVec n) (b2 x2 y2 : BitVec m),
    packWord b x y = packWord b2 x2 y2 ↔
      b.toNat % 16 = b2.toNat % 16 ∧ x.toNat % 64 = x2.toNat % 64 ∧ y.toNat % 64 = y2.toNat % 64

/-- R52: `enc_word` depends on the three encoder inputs and on nothing else, whatever was done before and whatever the decoder group is doing. -/
def Obligations.EncodeIsPure : Prop :=
  (∀ s1 s2 : State, s1.encBiomeId = s2.encBiomeId → s1.encCenterX = s2.encCenterX →
    s1.encCenterY = s2.encCenterY → s1.encWord = s2.encWord) ∧
  (∀ (s1 s2 t1 t2 : State) (b x y : PortValue), exec (.encode b x y) s1 = .next t1 →
    exec (.encode b x y) s2 = .next t2 → t1.encWord = t2.encWord)

/-- The corner cases of the table of ENCODE (40_encode.md section 2; computed by the spec). -/
def Obligations.EncodeCornerCases : Prop :=
  ∀ s : State,
    encodesTo s 0 0 0 0x0000 ∧ encodesTo s 15 63 63 0xFFFF ∧ encodesTo s 16 0 0 0x0000 ∧
    encodesTo s 0 64 0 0x0000 ∧ encodesTo s 0 0 64 0x0000 ∧ encodesTo s 255 255 255 0xFFFF ∧
    encodesTo s 0xFFFF 0xFFFF 0xFFFF 0xFFFF ∧ encodesTo s 9 9 9 0x9249 ∧
    encodesTo s 1 0 0 0x1000 ∧ encodesTo s 0 1 0 0x0040 ∧ encodesTo s 0 0 1 0x0001 ∧
    encodesTo s 8 0 0 0x8000 ∧ encodesTo s 0 32 0 0x0800 ∧ encodesTo s 0 0 32 0x0020 ∧
    encodesTo s 15 0 0 0xF000 ∧ encodesTo s 0 63 0 0x0FC0 ∧ encodesTo s 0 0 63 0x003F ∧
    encodesTo s 17 65 66 0x1042 ∧ encodesTo s 1 1 2 0x1042 ∧ encodesTo s 31 127 127 0xFFFF ∧
    encodesTo s 32 128 128 0x0000 ∧ encodesTo s 256 256 256 0x0000 ∧
    encodesTo s 0xFFF0 0xFFC0 0xFFC0 0x0000 ∧ encodesTo s 0x1234 0x5678 0x9ABC 0x4E3C ∧
    encodesTo s 4 56 60 0x4E3C

/-! ### DECODE -/

/-- From R54: for every state and every word DECODE completes, the three outputs are the fields of the word, by mask and shift and as slices, and then the corner cases and the worked example of R54. That the word is driven on `dec_word` is R44 (decision D15). That what the encoder group carries and shows is as before is no sentence of R54: it rests on R44, on R21 (the spec's own derivation, decision D1) and on log entry 8 (a group's inputs are held until driven again, the model's choice). -/
def Obligations.DecodeComputesTheRecord : Prop :=
  (∀ (s : State) (w : PackedWord), ∃ t, exec (.decode w) s = .next t ∧ t.decWord = w ∧
    t.decBiomeId.setWidth 16 = (w &&& 0xF000#16) >>> 12 ∧ t.decBiomeId = w.extractLsb' 12 4 ∧
    t.decCenterX.setWidth 16 = (w &&& 0x0FC0#16) >>> 6 ∧ t.decCenterX = w.extractLsb' 6 6 ∧
    t.decCenterY.setWidth 16 = w &&& 0x003F#16 ∧ t.decCenterY = w.extractLsb' 0 6 ∧
    t.encBiomeId = s.encBiomeId ∧ t.encCenterX = s.encCenterX ∧ t.encCenterY = s.encCenterY ∧
    t.encWord = s.encWord) ∧
  (∀ (s : State) (w : PackedWord) (t : State), exec (.decode w) s = .next t →
    w.getLsbD 15 = true → 8 ≤ t.decBiomeId.toNat) ∧
  (∀ s : State,
    decodesTo s 0x0000 0 0 0 ∧ decodesTo s 0xFFFF 15 63 63 ∧ decodesTo s 0x8000 8 0 0 ∧
    decodesTo s 0xF000 15 0 0 ∧ decodesTo s 0x0FC0 0 63 0 ∧ decodesTo s 0x003F 0 0 63 ∧
    decodesTo s 0x5294 5 10 20)

/-- DECODE completes in every state with every word, and its next state is this one: the word on `dec_word` and the outputs sampled. The list of samples is the model's own field (log entry 3), and that the encoder group keeps its inputs is log entry 8. -/
def Obligations.DecodeCompletesWithItsEffect : Prop :=
  ∀ (s : State) (w : PackedWord),
    exec (.decode w) s = .next { s with
      decWord := w,
      decObserved := s.decObserved ++ [⟨w.extractLsb' 12 4, w.extractLsb' 6 6, w.extractLsb' 0 6⟩] }

/-- The frame of DECODE: the encoder port group, its samples and the schedule are as before, and the earlier samples of the decoder outputs stay. The output rests on 10_state.md section 6 (the spec's own derivation), the held inputs on log entry 8, the samples and the schedule on log entries 2 and 3. The block has no register, flag, memory or program counter to name here (10_state.md R14 to R18). -/
def Obligations.DecodeFrame : Prop :=
  ∀ (s t : State) (w : PackedWord), exec (.decode w) s = .next t →
    t.encBiomeId = s.encBiomeId ∧ t.encCenterX = s.encCenterX ∧ t.encCenterY = s.encCenterY ∧
    t.encWord = s.encWord ∧ t.encObserved = s.encObserved ∧ t.schedule = s.schedule ∧
    ∃ d, t.decObserved = s.decObserved ++ [d]

/-- The fields by division and remainder, and what a shift without the mask would carry into `center_x` (41_decode.md section 2; the arithmetic form is the spec's own derivation). -/
def Obligations.DecodeByDivision : Prop :=
  ∀ w : PackedWord,
    (unpackWord w).biomeId.toNat = w.toNat / 4096 ∧
    (unpackWord w).centerX.toNat = w.toNat / 64 % 64 ∧
    (unpackWord w).centerY.toNat = w.toNat % 64 ∧
    (w >>> 6).toNat = (unpackWord w).biomeId.toNat * 64 + (unpackWord w).centerX.toNat

/-- Every decoder output bit is a copy of exactly one bit of `dec_word`, in every state (41_decode.md section 2; the spec's own derivation). -/
def Obligations.DecoderIsWiring : Prop :=
  ∀ s : State,
    (∀ i < 4, s.decBiomeId.getLsbD i = s.decWord.getLsbD (12 + i)) ∧
    (∀ i < 6, s.decCenterX.getLsbD i = s.decWord.getLsbD (6 + i)) ∧
    (∀ i < 6, s.decCenterY.getLsbD i = s.decWord.getLsbD i)

/-- A decoded record is always in range (41_decode.md section 2; the spec's own derivation), and a consumer that zero-extends an output sees the same unsigned value (10_state.md section 3, decision D5). -/
def Obligations.DecodedRecordInRange : Prop :=
  ∀ s : State, inRange (recordOfDecoded s.decRecord) ∧
    recordOfPorts (zextPort s.decBiomeId) (zextPort s.decCenterX) (zextPort s.decCenterY) =
      recordOfDecoded s.decRecord

/-- R59: the decoder outputs depend on `dec_word` and on nothing else. -/
def Obligations.DecodeIsPure : Prop :=
  (∀ s1 s2 : State, s1.decWord = s2.decWord → s1.decBiomeId = s2.decBiomeId ∧
    s1.decCenterX = s2.decCenterX ∧ s1.decCenterY = s2.decCenterY) ∧
  (∀ (s1 s2 t1 t2 : State) (w : PackedWord), exec (.decode w) s1 = .next t1 →
    exec (.decode w) s2 = .next t2 → t1.decRecord = t2.decRecord)

/-- The corner cases of the table of DECODE (41_decode.md section 2; computed by the spec). -/
def Obligations.DecodeCornerCases : Prop :=
  ∀ s : State,
    decodesTo s 0x0000 0 0 0 ∧ decodesTo s 0xFFFF 15 63 63 ∧ decodesTo s 0x8000 8 0 0 ∧
    decodesTo s 0xF000 15 0 0 ∧ decodesTo s 0x0FC0 0 63 0 ∧ decodesTo s 0x003F 0 0 63 ∧
    decodesTo s 0x1000 1 0 0 ∧ decodesTo s 0x0040 0 1 0 ∧ decodesTo s 0x0001 0 0 1 ∧
    decodesTo s 0x0800 0 32 0 ∧ decodesTo s 0x0020 0 0 32 ∧ decodesTo s 0x0FFF 0 63 63 ∧
    decodesTo s 0xF03F 15 0 63 ∧ decodesTo s 0xFFC0 15 63 0 ∧ decodesTo s 0x7FFF 7 63 63 ∧
    decodesTo s 0xAAAA 10 42 42 ∧ decodesTo s 0x5555 5 21 21 ∧ decodesTo s 0x1234 1 8 52 ∧
    decodesTo s 0xABCD 10 47 13 ∧ decodesTo s 0x2041 2 1 1

/-! ### Errors -/

/-- R69 and R70: neither operation raises an exception or reports an error, for any operands, in any state. -/
def Obligations.OperationsAlwaysSucceed : Prop :=
  (∀ (s : State) (b x y : PortValue), ∃ t, exec (.encode b x y) s = .next t) ∧
  (∀ (s : State) (w : PackedWord), ∃ t, exec (.decode w) s = .next t)

/-! ### The laws that tie the two operations together -/

/-- R61: encoding an in-range record and decoding the word gives the record back. -/
def Obligations.RoundTripInRange : Prop :=
  ∀ (s : State) (b x y : PortValue), inRange (recordOfPorts b x y) →
    ∃ t u, exec (.encode b x y) s = .next t ∧ exec (.decode t.encWord) t = .next u ∧
      recordOfDecoded u.decRecord = recordOfPorts b x y

/-- R62: encoding any record and decoding the word gives each field reduced modulo its value space, whatever the other fields are: on the ports, and for a record of fields of any size. -/
def Obligations.RoundTripAnyRecord : Prop :=
  (∀ (s : State) (b x y : PortValue),
    ∃ t u, exec (.encode b x y) s = .next t ∧ exec (.decode t.encWord) t = .next u ∧
      u.decBiomeId.toNat = b.toNat % 16 ∧ u.decCenterX.toNat = x.toNat % 64 ∧
      u.decCenterY.toNat = y.toNat % 64) ∧
  (∀ r : ChunkRecord,
    recordOfDecoded (unpackWord (recordWord r)) = ⟨r.biomeId % 16, r.centerX % 64, r.centerY % 64⟩)

/-- Overflow wraparound: 16 and 64 give the word of 0, and in general adding multiples of 16 and 64 to the operands does not change the word (42_laws.md section 1; the general form and the number 0x0000 are the spec's own). -/
def Obligations.OverflowWraparound : Prop :=
  packWord (16 : PortValue) 0 0 = packWord (0 : PortValue) 0 0 ∧
  packWord (0 : PortValue) 64 0 = packWord (0 : PortValue) 0 0 ∧
  packWord (0 : PortValue) 0 64 = packWord (0 : PortValue) 0 0 ∧
  packWord (0 : PortValue) 0 0 = 0x0000#16 ∧
  (∀ b x y k m n : PortValue, packWord (b + 16 * k) (x + 64 * m) (y + 64 * n) = packWord b x y) ∧
  (∀ b x y k m n : Nat, recordWord ⟨b + 16 * k, x + 64 * m, y + 64 * n⟩ = recordWord ⟨b, x, y⟩)

/-- R64: changing one field of a record, in range or not, never changes the other decoded fields, and changes the word at most in that field's bits. -/
def Obligations.BitIsolation : Prop :=
  ∀ (n : Nat) (b x y b2 x2 y2 : BitVec n),
    ((unpackWord (packWord b x y2)).biomeId = (unpackWord (packWord b x y)).biomeId ∧
      (unpackWord (packWord b x y2)).centerX = (unpackWord (packWord b x y)).centerX) ∧
    ((unpackWord (packWord b x2 y)).biomeId = (unpackWord (packWord b x y)).biomeId ∧
      (unpackWord (packWord b x2 y)).centerY = (unpackWord (packWord b x y)).centerY) ∧
    ((unpackWord (packWord b2 x y)).centerX = (unpackWord (packWord b x y)).centerX ∧
      (unpackWord (packWord b2 x y)).centerY = (unpackWord (packWord b x y)).centerY) ∧
    (∀ i, 5 < i → (packWord b x y2).getLsbD i = (packWord b x y).getLsbD i) ∧
    (∀ i, i < 6 ∨ 11 < i → (packWord b x2 y).getLsbD i = (packWord b x y).getLsbD i) ∧
    (∀ i, i < 12 → (packWord b2 x y).getLsbD i = (packWord b x y).getLsbD i)

/-- The reverse round trip: decoding any word and encoding the zero-extended fields gives the word back (42_laws.md section 2; the spec's own derivation). -/
def Obligations.ReverseRoundTrip : Prop :=
  ∀ (s : State) (w : PackedWord), ∃ t u, exec (.decode w) s = .next t ∧
    exec (.encode (zextPort t.decBiomeId) (zextPort t.decCenterX) (zextPort t.decCenterY)) t = .next u ∧
    u.encWord = w

/-- The operations are inverse bijections between the in-range records and the words: every word is the word of exactly one in-range record, the one it decodes to (42_laws.md section 2; the spec's own derivation). -/
def Obligations.BijectionOnInRangeRecords : Prop :=
  (∀ w : PackedWord, ∃! r : ChunkRecord, inRange r ∧ recordWord r = w) ∧
  (∀ (r : ChunkRecord) (w : PackedWord), inRange r →
    (recordWord r = w ↔ recordOfDecoded (unpackWord w) = r)) ∧
  (∀ v w : PackedWord, unpackWord v = unpackWord w → v = w)

/-- Exactly 2^32 operand triples on the 16-bit ports map to each word (42_laws.md section 2; the spec's own derivation, for its own port width D4). -/
def Obligations.OperandTriplesPerWord : Prop :=
  ∀ w : PackedWord,
    Set.ncard { p : PortValue × PortValue × PortValue | packWord p.1 p.2.1 p.2.2 = w } = 2 ^ 32

/-- Going through the codec reduces each field, and doing it once more changes nothing (42_laws.md section 2; the spec's own derivation). -/
def Obligations.NormalisationIdempotent : Prop :=
  ∀ r : ChunkRecord,
    recordOfDecoded (unpackWord (recordWord r)) = normRecord r ∧
    normRecord (normRecord r) = normRecord r ∧
    (normRecord r = r ↔ inRange r) ∧
    recordWord (normRecord r) = recordWord r

/-- For in-range records the numeric order of the words is the lexicographic order of the records; adding 1 to a word is not adding 1 to `center_y` (42_laws.md section 2; the spec's own derivation). -/
def Obligations.WordOrderIsLexicographic : Prop :=
  (∀ r q : ChunkRecord, inRange r → inRange q →
    ((recordWord r).toNat < (recordWord q).toNat ↔
      r.biomeId < q.biomeId ∨ (r.biomeId = q.biomeId ∧
        (r.centerX < q.centerX ∨ (r.centerX = q.centerX ∧ r.centerY < q.centerY))))) ∧
  recordOfDecoded (unpackWord (recordWord ⟨0, 0, 63⟩ + 1)) = ⟨0, 1, 0⟩ ∧
  recordWord ⟨0, 0, 63 + 1⟩ = 0x0000#16

/-- The wired encoder computes the arithmetic `encode` of the record on its ports, whatever their width; and for unbounded records any port width of 7 bits or more gives the word of the record (00_scope.md section 4; the width is the spec's own decision D4). -/
def Obligations.PortEncodeRefinesRecordEncode : Prop :=
  (∀ (n : Nat) (b x y : BitVec n), packWord b x y = recordWord (recordOfPorts b x y)) ∧
  (∀ (n : Nat) (r : ChunkRecord), 7 ≤ n →
    packWord (BitVec.ofNat n r.biomeId) (BitVec.ofNat n r.centerX) (BitVec.ofNat n r.centerY) = recordWord r)

/-! ### The two port groups, and their connections -/

/-- Presented one after the other in either order, an ENCODE and a DECODE lead to the same state: the same ports and outputs, which is the independence of the groups (10_state.md section 6; the spec's own derivation), and the same samples, since the model keeps one list of samples for each group (the sample lists are the model's own, log entry 3) and holds a group's inputs until they are driven again (log entry 8). -/
def Obligations.GroupsAreIndependent : Prop :=
  ∀ (s : State) (b x y : PortValue) (w : PackedWord),
    andThen (exec (.encode b x y) s) (exec (.decode w)) = andThen (exec (.decode w) s) (exec (.encode b x y))

/-- Both groups used at one instant: each gives the result it would give alone (10_state.md section 6 and 60_exceptions.md section 2; the spec's own derivation). The schedule and the samples are the model's own (log entries 2 and 3). -/
def Obligations.BothGroupsAtOneInstant : Prop :=
  ∀ (s : State) (b x y : PortValue) (w : PackedWord) (rest : List Stimulus),
    s.schedule = ⟨.driven b x y, .driven w⟩ :: rest →
    ∃ t, step s = .next t ∧ t.schedule = rest ∧ t.encWord = packWord b x y ∧ t.decRecord = unpackWord w ∧
      t.encObserved = s.encObserved ++ [packWord b x y] ∧ t.decObserved = s.decObserved ++ [unpackWord w]

/-- Connecting `enc_word` to `dec_word` gives, on the decoder outputs, `decode(encode(b, x, y))` of what the encoder group carries: of the operands driven at that instant, and of the operands that stand when the group is held, which then takes no sample (70_reset_and_hazards.md section 2, decision D21). The samples are the model's own (log entry 3), and that a held group keeps its inputs is log entry 8. -/
def Obligations.EncoderIntoDecoder : Prop :=
  (∀ (s : State) (b x y : PortValue) (rest : List Stimulus),
    s.schedule = ⟨.driven b x y, .fromEncoder⟩ :: rest →
    ∃ t, step s = .next t ∧ t.schedule = rest ∧
      t.encBiomeId = b ∧ t.encCenterX = x ∧ t.encCenterY = y ∧ t.encWord = packWord b x y ∧
      t.encObserved = s.encObserved ++ [t.encWord] ∧ t.decWord = t.encWord ∧
      recordOfDecoded t.decRecord = normRecord (recordOfPorts b x y) ∧
      t.decObserved = s.decObserved ++ [t.decRecord]) ∧
  (∀ (s : State) (rest : List Stimulus),
    s.schedule = ⟨.held, .fromEncoder⟩ :: rest →
    ∃ t, step s = .next t ∧ t.schedule = rest ∧
      t.encBiomeId = s.encBiomeId ∧ t.encCenterX = s.encCenterX ∧ t.encCenterY = s.encCenterY ∧
      t.encWord = s.encWord ∧ t.encObserved = s.encObserved ∧ t.decWord = t.encWord ∧
      recordOfDecoded t.decRecord = normRecord (recordOfPorts s.encBiomeId s.encCenterX s.encCenterY) ∧
      t.decObserved = s.decObserved ++ [t.decRecord])

/-- Connecting the zero-extended decoder outputs to the encoder inputs gives, on `enc_word`, `encode(decode(w))`, which is `w`, for the word that the decoder group carries: the word driven at that instant, and the word that stands when the group is held, which then takes no sample (70_reset_and_hazards.md section 2, decision D21). The samples are the model's own (log entry 3), and that a held group keeps its input is log entry 8. -/
def Obligations.DecoderIntoEncoder : Prop :=
  (∀ (s : State) (w : PackedWord) (rest : List Stimulus),
    s.schedule = ⟨.fromDecoder, .driven w⟩ :: rest →
    ∃ t, step s = .next t ∧ t.schedule = rest ∧ t.decWord = w ∧ t.decRecord = unpackWord w ∧
      t.decObserved = s.decObserved ++ [t.decRecord] ∧
      t.encBiomeId = zextPort t.decBiomeId ∧ t.encCenterX = zextPort t.decCenterX ∧
      t.encCenterY = zextPort t.decCenterY ∧ t.encWord = w ∧
      t.encObserved = s.encObserved ++ [t.encWord]) ∧
  (∀ (s : State) (rest : List Stimulus),
    s.schedule = ⟨.fromDecoder, .held⟩ :: rest →
    ∃ t, step s = .next t ∧ t.schedule = rest ∧ t.decWord = s.decWord ∧ t.decRecord = s.decRecord ∧
      t.decObserved = s.decObserved ∧
      t.encBiomeId = zextPort t.decBiomeId ∧ t.encCenterX = zextPort t.decCenterX ∧
      t.encCenterY = zextPort t.decCenterY ∧ t.encWord = s.decWord ∧
      t.encObserved = s.encObserved ++ [t.encWord])

/-- A stimulus that leaves both groups alone completes, changes no port and takes no sample; only the schedule moves on (the model's own: log entries 2, 3 and 8). -/
def Obligations.HeldStimulusOnlyMovesOn : Prop :=
  ∀ (s : State) (rest : List Stimulus), s.schedule = ⟨.held, .held⟩ :: rest →
    step s = .next { s with schedule := rest }

/-- A step is refused exactly when the next stimulus connects both loopbacks at once, and it never faults (70_reset_and_hazards.md section 2, decision D21; 93_implementation_defined.md part 2, treatment refuse). -/
def Obligations.OnlyTheDoubleLoopbackIsRefused : Prop :=
  (∀ (s : State) (r : Refusal), step s = .refused r ↔
    r = .combinationalLoop ∧ ∃ rest, s.schedule = ⟨.fromDecoder, .fromEncoder⟩ :: rest) ∧
  (∀ (s : State) (f : Fault), step s ≠ .fault f)

/-- The outputs are the functions of the inputs in every state, the reset state among them, and inputs of zero give outputs of zero (70_reset_and_hazards.md section 1, decision D18). -/
def Obligations.OutputsStandInEveryState : Prop :=
  ∀ s : State, s.encWord = packWord s.encBiomeId s.encCenterX s.encCenterY ∧
    s.decRecord = unpackWord s.decWord ∧
    (s.encBiomeId = 0 → s.encCenterX = 0 → s.encCenterY = 0 → s.encWord = 0x0000#16) ∧
    (s.decWord = 0x0000#16 → s.decRecord = ⟨0, 0, 0⟩)

/-- Presenting the same operation again gives the same outputs and the same samples again (10_state.md section 4, 20_memory.md section 1, decision D12). The samples are the model's own (log entry 3), and that the group the operation does not use shows what it did rests on log entry 8 (a group's inputs are held until driven again, the model's choice). -/
def Obligations.RepeatedOperationIsIdempotent : Prop :=
  ∀ (i : Instr) (s t u : State), exec i s = .next t → exec i t = .next u →
    u.encWord = t.encWord ∧ u.decRecord = t.decRecord ∧
    ∃ ws ds, t.encObserved = s.encObserved ++ ws ∧ u.encObserved = t.encObserved ++ ws ∧
      t.decObserved = s.decObserved ++ ds ∧ u.decObserved = t.decObserved ++ ds

/-! ### The step, and runs of it -/

/-- When the next stimulus presents one operation alone, the step is that operation's meaning, with the stimulus taken off the schedule (log entry 2). -/
def Obligations.StepRunsThePresentedOperation : Prop :=
  ∀ (s : State) (i : Instr) (rest : List Stimulus), s.schedule = stimulusOf i :: rest →
    step s = exec i { s with schedule := rest }

/-- When bits decode to an operation, the step after they are placed runs exactly that operation (log entries 2 and 6). -/
def Obligations.StepRunsTheFetchedWord : Prop :=
  ∀ (s : State) (nbits w : Nat) (i : Instr), decodeTableWord nbits w = some i →
    step (s.withFetchWord nbits w) = exec i s

/-- With nothing to present, a step changes nothing (the model's choice: log entry 7, and log entry 8 for the inputs, which are held). -/
def Obligations.IdleStepChangesNothing : Prop :=
  ∀ s : State, s.schedule = [] → step s = .next s

/-- While the environment keeps its duty every step completes, takes one stimulus off the schedule, and the duty still holds (70_reset_and_hazards.md section 2, decisions D20 and D21). -/
def Obligations.StepsCompleteUnderTheDuty : Prop :=
  ∀ s : State, scheduleOk s → ∃ t, step s = .next t ∧ t.schedule = s.schedule.tail ∧ scheduleOk t

/-- Every step keeps the invariant: what is still to present keeps the environment's duty, and what was sampled last on a group is what its outputs still show (70_reset_and_hazards.md section 2). The second part is the model's: the samples are log entry 3, and that inputs are held between operations is log entry 8. -/
def Obligations.EveryStepKeepsTheDutyAndTheSamples : Prop :=
  ∀ s t : State, scheduleOk s → samplesStand s → step s = .next t → scheduleOk t ∧ samplesStand t

/-- The invariant holds at reset. It does not rest on the values the model chose for the inputs (log entry 4): nothing has been sampled. -/
def Obligations.ResetMeetsTheDutyAndTheSamples : Prop :=
  scheduleOk State.reset ∧ samplesStand State.reset

/-- Every program of the environment that keeps its duty runs to its end, one step for each stimulus (70_reset_and_hazards.md section 2, decision D20; the schedule is the model's own, log entry 2); and if what was sampled last on each group is what its outputs show at the start, it is so at the end, which rests on two choices of the model: the sample lists (log entry 3) and inputs held between operations (log entry 8). -/
def Obligations.ScheduleRunsToItsEnd : Prop :=
  ∀ s : State, scheduleOk s →
    ∃ t, run s.schedule.length s = .next t ∧ t.schedule = [] ∧ (samplesStand s → samplesStand t)

/-- In a run of any operations in any order, every operation gives the result of its own operands alone (20_memory.md section 2; the spec's own derivation; the schedule and the samples are the model's own, log entries 2 and 3). -/
def Obligations.EveryOperationGivesItsOwnResult : Prop :=
  ∀ (s : State) (is : List Instr), s.schedule = is.map stimulusOf →
    ∃ t, run is.length s = .next t ∧ t.schedule = [] ∧
      t.encObserved = s.encObserved ++ encodeResults is ∧
      t.decObserved = s.decObserved ++ decodeResults is

/-- How ENCODEs and DECODEs are interleaved makes no difference at all: two runs with the same ENCODEs in the same order and the same DECODEs in the same order end in the same state (20_memory.md section 2 and 10_state.md section 6; the spec's own derivation). That the whole state is the same rests on one list of samples for each group (log entry 3) and on inputs held until driven again (log entry 8). -/
def Obligations.InterleavingDoesNotMatter : Prop :=
  ∀ (s t u : State) (is js : List Instr),
    is.filter isEncode = js.filter isEncode →
    is.filter (fun i => !isEncode i) = js.filter (fun i => !isEncode i) →
    run is.length { s with schedule := is.map stimulusOf } = .next t →
    run js.length { s with schedule := js.map stimulusOf } = .next u →
    t = u

/-! ### The environment's use of the block -/

/-- In the row-major order every cell of a grid has its place `x + y * width` (20_memory.md section 3, environment). -/
def Obligations.RowMajorPlace : Prop :=
  ∀ (width height : Nat) (cell : Nat → Nat → ChunkRecord),
    (rowMajor width height cell).length = width * height ∧
    ∀ x y, x < width → y < height → (rowMajor width height cell)[x + y * width]? = some (cell x y)

/-- Packing every cell of a grid and unpacking the words in the same order gives, on `enc_word`, the words of the records and, on the decoder outputs, the records with each field reduced, so in-range records come back (20_memory.md section 3, environment, and 42_laws.md section 1). The schedule and the samples are the model's own (log entries 2 and 3). -/
def Obligations.GridPacksAndUnpacks : Prop :=
  ∀ (s : State) (width height : Nat) (cell : Nat → Nat → ChunkRecord) (words : List PackedWord),
    words = (rowMajor width height cell).map recordWord →
    s.schedule = packSchedule (rowMajor width height cell) ++ unpackSchedule words →
    ∃ t, run (2 * (width * height)) s = .next t ∧ t.schedule = [] ∧
      t.encObserved = s.encObserved ++ words ∧
      t.decObserved.map recordOfDecoded =
        s.decObserved.map recordOfDecoded ++ (rowMajor width height cell).map normRecord

/-- A word is serialised low byte first: `center_y` and the low bits of `center_x` in the first byte, the rest in the second; and joining the bytes gives the word back (20_memory.md section 1, decision D11). -/
def Obligations.SerialisedLowByteFirst : Prop :=
  ∀ w : PackedWord, ∃ low high, bytesOfWord w = [low, high] ∧
    low.extractLsb' 0 6 = (unpackWord w).centerY ∧
    low.extractLsb' 6 2 = (unpackWord w).centerX.extractLsb' 0 2 ∧
    high.extractLsb' 0 4 = (unpackWord w).centerX.extractLsb' 2 4 ∧
    high.extractLsb' 4 4 = (unpackWord w).biomeId ∧
    wordOfBytes low high = w

/-! ### The stimulus of an operation as bytes -/

/-- Decoding the stimulus of any operation gives the operation back, every operand at every value (the bytes are the model's choice, log entry 5). -/
def Obligations.StimulusDecodeOfEncode : Prop :=
  ∀ i : Instr, i.wellFormed = true → decodeStimulus (encodeStimulus i) = .ok i

/-- Every byte string that decodes is the stimulus of what it decodes to (log entry 5). -/
def Obligations.StimulusEncodeOfDecode : Prop :=
  ∀ (bs : List Byte) (i : Instr), decodeStimulus bs = .ok i → encodeStimulus i = bs

/-- The format of a stimulus, which names the port group, is told by its length alone, and any other length is rejected by name: no bit of a word chooses the operation (30_encoding.md section 2, decisions D1 and D14; log entry 5). -/
def Obligations.FormatToldByLength : Prop :=
  ∀ bs : List Byte,
    ((∃ w, decodeStimulus bs = .ok (.decode w)) ↔ bs.length = 2) ∧
    ((∃ b x y, decodeStimulus bs = .ok (.encode b x y)) ↔ bs.length = 6) ∧
    (∀ r, decodeStimulus bs = .error r ↔ bs.length ≠ 2 ∧ bs.length ≠ 6 ∧ r = .noSuchFormat bs.length)

/-- Stimuli written out by hand from the operand formats (log entry 5). -/
def Obligations.WrittenOutStimuli : Prop :=
  decodeStimulus [0x94, 0x52] = .ok (.decode 0x5294) ∧
  decodeStimulus [0x34, 0x12, 0x78, 0x56, 0xBC, 0x9A] = .ok (.encode 0x1234 0x5678 0x9ABC) ∧
  decodeStimulus [0x05, 0x00, 0x0A, 0x00, 0x14, 0x00] = .ok (.encode 5 10 20) ∧
  decodeStimulus [0x94] = .error (.noSuchFormat 1)

/-- The host's numbering of bits: 16 bits are the word of a DECODE, 48 bits the three operands of an ENCODE, the first operand lowest (log entry 6). -/
def Obligations.TableWordsDecode : Prop :=
  (∀ w : PackedWord, decodeTableWord 16 w.toNat = some (.decode w)) ∧
  (∀ b x y : PortValue,
    decodeTableWord 48 (b.toNat + x.toNat * 2 ^ 16 + y.toNat * 2 ^ 32) = some (.encode b x y))
end

