-- ==== Sys2Proof/Laws/State.lean ====
section
/-! SUPPORT. What each act of the environment on the ports does to each field and to each output port: one lemma for each, so that no proof unfolds a record update. -/

namespace Sys2Proof.Machine

section
variable (s : State) (b x y : PortValue) (w : PackedWord)

@[simp] theorem driveEncoder_encBiomeId : (driveEncoder b x y s).encBiomeId = b := rfl
@[simp] theorem driveEncoder_encCenterX : (driveEncoder b x y s).encCenterX = x := rfl
@[simp] theorem driveEncoder_encCenterY : (driveEncoder b x y s).encCenterY = y := rfl
@[simp] theorem driveEncoder_decWord : (driveEncoder b x y s).decWord = s.decWord := rfl
@[simp] theorem driveEncoder_schedule : (driveEncoder b x y s).schedule = s.schedule := rfl
@[simp] theorem driveEncoder_encObserved : (driveEncoder b x y s).encObserved = s.encObserved := rfl
@[simp] theorem driveEncoder_decObserved : (driveEncoder b x y s).decObserved = s.decObserved := rfl
@[simp] theorem driveEncoder_encWord : (driveEncoder b x y s).encWord = packWord b x y := rfl
@[simp] theorem driveEncoder_decRecord : (driveEncoder b x y s).decRecord = s.decRecord := rfl
@[simp] theorem driveEncoder_decBiomeId : (driveEncoder b x y s).decBiomeId = s.decBiomeId := rfl
@[simp] theorem driveEncoder_decCenterX : (driveEncoder b x y s).decCenterX = s.decCenterX := rfl
@[simp] theorem driveEncoder_decCenterY : (driveEncoder b x y s).decCenterY = s.decCenterY := rfl

@[simp] theorem driveDecoder_encBiomeId : (driveDecoder w s).encBiomeId = s.encBiomeId := rfl
@[simp] theorem driveDecoder_encCenterX : (driveDecoder w s).encCenterX = s.encCenterX := rfl
@[simp] theorem driveDecoder_encCenterY : (driveDecoder w s).encCenterY = s.encCenterY := rfl
@[simp] theorem driveDecoder_decWord : (driveDecoder w s).decWord = w := rfl
@[simp] theorem driveDecoder_schedule : (driveDecoder w s).schedule = s.schedule := rfl
@[simp] theorem driveDecoder_encObserved : (driveDecoder w s).encObserved = s.encObserved := rfl
@[simp] theorem driveDecoder_decObserved : (driveDecoder w s).decObserved = s.decObserved := rfl
@[simp] theorem driveDecoder_encWord : (driveDecoder w s).encWord = s.encWord := rfl
@[simp] theorem driveDecoder_decRecord : (driveDecoder w s).decRecord = unpackWord w := rfl
@[simp] theorem driveDecoder_decBiomeId : (driveDecoder w s).decBiomeId = selectBiome w := rfl
@[simp] theorem driveDecoder_decCenterX : (driveDecoder w s).decCenterX = selectX w := rfl
@[simp] theorem driveDecoder_decCenterY : (driveDecoder w s).decCenterY = selectY w := rfl

@[simp] theorem sampleEncoder_encBiomeId : (sampleEncoder s).encBiomeId = s.encBiomeId := rfl
@[simp] theorem sampleEncoder_encCenterX : (sampleEncoder s).encCenterX = s.encCenterX := rfl
@[simp] theorem sampleEncoder_encCenterY : (sampleEncoder s).encCenterY = s.encCenterY := rfl
@[simp] theorem sampleEncoder_decWord : (sampleEncoder s).decWord = s.decWord := rfl
@[simp] theorem sampleEncoder_schedule : (sampleEncoder s).schedule = s.schedule := rfl
@[simp] theorem sampleEncoder_encObserved : (sampleEncoder s).encObserved = s.encObserved ++ [s.encWord] := rfl
@[simp] theorem sampleEncoder_decObserved : (sampleEncoder s).decObserved = s.decObserved := rfl
@[simp] theorem sampleEncoder_encWord : (sampleEncoder s).encWord = s.encWord := rfl
@[simp] theorem sampleEncoder_decRecord : (sampleEncoder s).decRecord = s.decRecord := rfl
@[simp] theorem sampleEncoder_decBiomeId : (sampleEncoder s).decBiomeId = s.decBiomeId := rfl
@[simp] theorem sampleEncoder_decCenterX : (sampleEncoder s).decCenterX = s.decCenterX := rfl
@[simp] theorem sampleEncoder_decCenterY : (sampleEncoder s).decCenterY = s.decCenterY := rfl

@[simp] theorem sampleDecoder_encBiomeId : (sampleDecoder s).encBiomeId = s.encBiomeId := rfl
@[simp] theorem sampleDecoder_encCenterX : (sampleDecoder s).encCenterX = s.encCenterX := rfl
@[simp] theorem sampleDecoder_encCenterY : (sampleDecoder s).encCenterY = s.encCenterY := rfl
@[simp] theorem sampleDecoder_decWord : (sampleDecoder s).decWord = s.decWord := rfl
@[simp] theorem sampleDecoder_schedule : (sampleDecoder s).schedule = s.schedule := rfl
@[simp] theorem sampleDecoder_encObserved : (sampleDecoder s).encObserved = s.encObserved := rfl
@[simp] theorem sampleDecoder_decObserved : (sampleDecoder s).decObserved = s.decObserved ++ [s.decRecord] := rfl
@[simp] theorem sampleDecoder_encWord : (sampleDecoder s).encWord = s.encWord := rfl
@[simp] theorem sampleDecoder_decRecord : (sampleDecoder s).decRecord = s.decRecord := rfl
@[simp] theorem sampleDecoder_decBiomeId : (sampleDecoder s).decBiomeId = s.decBiomeId := rfl
@[simp] theorem sampleDecoder_decCenterX : (sampleDecoder s).decCenterX = s.decCenterX := rfl
@[simp] theorem sampleDecoder_decCenterY : (sampleDecoder s).decCenterY = s.decCenterY := rfl

end

/-- An output of the encoder sees only the encoder inputs, whatever else a state holds. -/
theorem encWord_congr {s t : State} (hb : s.encBiomeId = t.encBiomeId) (hx : s.encCenterX = t.encCenterX)
    (hy : s.encCenterY = t.encCenterY) : s.encWord = t.encWord := by
  simp only [State.encWord, hb, hx, hy]

/-- The outputs of the decoder see only `dec_word`. -/
theorem decRecord_congr {s t : State} (hw : s.decWord = t.decWord) : s.decRecord = t.decRecord := by
  simp only [State.decRecord, hw]

end Sys2Proof.Machine
end

