-- ==== Sys2Proof/Laws/Exec.lean ====
section
/-! SUPPORT. What an operation, a group's part of an instant, and a whole instant can do, said once. -/

namespace Sys2Proof.Machine

/-- What an operation can do: it drives and samples its own group, and nothing else happens. -/
theorem exec_next {i : Instr} {s t : State} (h : exec i s = .next t) :
    (∃ b x y, i = .encode b x y ∧ t = sampleEncoder (driveEncoder b x y s)) ∨
    (∃ w, i = .decode w ∧ t = sampleDecoder (driveDecoder w s)) := by
  cases i with
  | encode b x y => exact .inl ⟨b, x, y, rfl, (Host.Outcome.next.inj h).symm⟩
  | decode w => exact .inr ⟨w, rfl, (Host.Outcome.next.inj h).symm⟩

/-- The encoder group's part of an instant: it is left alone, or driven and sampled. -/
theorem presentEncoder_cases (src : EncSource) (s : State) :
    presentEncoder src s = .next s ∨
    ∃ b x y, presentEncoder src s = .next (sampleEncoder (driveEncoder b x y s)) := by
  cases src with
  | held => exact .inl rfl
  | driven b x y => exact .inr ⟨b, x, y, rfl⟩
  | fromDecoder => exact .inr ⟨_, _, _, rfl⟩

/-- The decoder group's part of an instant: it is left alone, or driven and sampled. -/
theorem presentDecoder_cases (src : DecSource) (s : State) :
    presentDecoder src s = .next s ∨
    ∃ w, presentDecoder src s = .next (sampleDecoder (driveDecoder w s)) := by
  cases src with
  | held => exact .inl rfl
  | driven w => exact .inr ⟨w, rfl⟩
  | fromEncoder => exact .inr ⟨_, rfl⟩

@[simp] theorem andThen_next (s : State) (f : State → Host.Outcome State Fault Refusal) :
    andThen (.next s) f = f s := rfl

/-- If one act after another answers a next state, both did. -/
theorem andThen_eq_next {o : Host.Outcome State Fault Refusal} {f : State → Host.Outcome State Fault Refusal}
    {t : State} (h : andThen o f = .next t) : ∃ s, o = .next s ∧ f s = .next t := by
  cases o with
  | next s => exact ⟨s, rfl, h⟩
  | fault r => cases r
  | refused r => cases h

/-- A well-formed stimulus settles one group and then the other. -/
theorem present_of_wellFormed {st : Stimulus} (h : st.wellFormed = true) (s : State) :
    present st s = andThen (presentDecoder st.decoder s) (presentEncoder st.encoder) ∨
    present st s = andThen (presentEncoder st.encoder s) (presentDecoder st.decoder) := by
  obtain ⟨enc, dec⟩ := st
  cases enc with
  | held => exact .inr rfl
  | driven b x y => exact .inr rfl
  | fromDecoder =>
    cases dec with
    | held => exact .inl rfl
    | driven w => exact .inl rfl
    | fromEncoder => cases h

/-- A stimulus that is not well formed is both loopbacks at once, and is refused. -/
theorem present_of_not_wellFormed {st : Stimulus} (h : st.wellFormed = false) (s : State) :
    st = ⟨.fromDecoder, .fromEncoder⟩ ∧ present st s = .refused .combinationalLoop := by
  obtain ⟨enc, dec⟩ := st
  cases enc with
  | held => cases h
  | driven b x y => cases h
  | fromDecoder =>
    cases dec with
    | held => cases h
    | driven w => cases h
    | fromEncoder => exact ⟨rfl, rfl⟩

/-- Both groups held: nothing happens. -/
@[simp] theorem present_held (s : State) : present ⟨.held, .held⟩ s = .next s := rfl

/-- The encoder held and connected to the decoder: the decoder takes the standing `enc_word`. -/
theorem present_heldEncoder_intoDecoder (s : State) :
    present ⟨.held, .fromEncoder⟩ s = .next (sampleDecoder (driveDecoder s.encWord s)) := rfl

/-- The decoder held and connected to the encoder: the encoder takes the standing outputs, zero-extended. -/
theorem present_heldDecoder_intoEncoder (s : State) :
    present ⟨.fromDecoder, .held⟩ s =
      .next (sampleEncoder (driveEncoder (zextPort s.decBiomeId) (zextPort s.decCenterX)
        (zextPort s.decCenterY) s)) := rfl

/-- An operation presented alone does what the operation does. -/
@[simp] theorem present_stimulusOf (i : Instr) (s : State) : present (stimulusOf i) s = exec i s := by
  cases i <;> rfl

end Sys2Proof.Machine
end

