-- ==== Sys2Proof/Laws/PerInstr.lean ====
section
/-! SUPPORT. What holds of every operation as syntax, one lemma for each constructor: the length of its stimulus is that of its operand format (spec/30_encoding.md R38, R39). -/

namespace Sys2Proof.Laws.StimulusLength

/-- The number of bytes of the operation's format: three port values for ENC, one word for DEC. -/
def Statement (i : Instr) : Prop :=
  (encodeStimulus i).length = match i with
    | .encode _ _ _ => 6
    | .decode _ => 2

theorem encode (b x y : PortValue) : Statement (.encode b x y) := rfl

theorem decode (w : PackedWord) : Statement (.decode w) := rfl

end Sys2Proof.Laws.StimulusLength
end

