-- ==== Sys2Proof/Laws/Step.lean ====
section
/-! SUPPORT. What a step can do, said once. -/

namespace Sys2Proof.Machine

theorem step_of_nil {s : State} (h : s.schedule = []) : step s = .next s := by
  simp only [step, h]

theorem step_of_cons {s : State} {st : Stimulus} {rest : List Stimulus} (h : s.schedule = st :: rest) :
    step s = present st { s with schedule := rest } := by
  simp only [step, h]

/-- If a step answers a next state, nothing was scheduled and nothing changed, or the next stimulus was well formed and was presented with the rest still scheduled. -/
theorem step_next {s t : State} (h : step s = .next t) :
    (s.schedule = [] ∧ t = s) ∨
    ∃ st rest, s.schedule = st :: rest ∧ st.wellFormed = true ∧ present st { s with schedule := rest } = .next t := by
  cases hs : s.schedule with
  | nil => exact .inl ⟨rfl, (Host.Outcome.next.inj ((step_of_nil hs).symm.trans h)).symm⟩
  | cons st rest =>
    have hp := (step_of_cons hs).symm.trans h
    refine .inr ⟨st, rest, rfl, ?_, hp⟩
    cases hw : st.wellFormed with
    | true => rfl
    | false => rw [(present_of_not_wellFormed hw _).2] at hp; cases hp

/-- Bits that decode to an operation place its stimulus at the head of the schedule. -/
theorem withFetchWord_of_decode {s : State} {nbits w : Nat} {i : Instr} (h : decodeTableWord nbits w = some i) :
    s.withFetchWord nbits w = { s with schedule := stimulusOf i :: s.schedule } := by
  simp only [State.withFetchWord, h]

end Sys2Proof.Machine
end

