-- ==== Sys2Proof/Laws/Run.lean ====
section
/-! SUPPORT. Transactions, and runs of several steps: one run after another, the induction over a run packaged once, and the host's run of `core`. -/

namespace Sys2Proof.Machine

/-- What an ENCODE puts on `enc_word` is `packWord` of its operands, in every state. -/
theorem encodesTo_iff {s : State} {b x y : PortValue} {w : PackedWord} :
    encodesTo s b x y w ↔ packWord b x y = w :=
  ⟨fun ⟨_, h, hw⟩ => (congrArg State.encWord (Host.Outcome.next.inj h)).trans hw, fun h => ⟨_, rfl, h⟩⟩

/-- What a DECODE puts on the outputs is the fields of its operand, in every state. -/
theorem decodesTo_iff {s : State} {w : PackedWord} {b : BitVec 4} {x y : BitVec 6} :
    decodesTo s w b x y ↔ selectBiome w = b ∧ selectX w = x ∧ selectY w = y := by
  constructor
  · rintro ⟨t, h, hb, hx, hy⟩
    cases h
    exact ⟨hb, hx, hy⟩
  · rintro ⟨hb, hx, hy⟩
    exact ⟨_, rfl, hb, hx, hy⟩

theorem run_zero (s : State) : run 0 s = .next s := rfl

theorem run_succ (k : Nat) (s : State) : run (k + 1) s = andThen (step s) (run k) := rfl

/-- One run after another. -/
theorem run_add (j k : Nat) (s : State) : run (j + k) s = andThen (run j s) (run k) := by
  induction j generalizing s with
  | zero => rw [Nat.zero_add, run_zero, andThen_next]
  | succ j ih =>
    rw [Nat.succ_add, run_succ, run_succ]
    cases step s with
    | next t => exact ih t
    | fault r => cases r
    | refused r => rfl

/-- What every step keeps, every run keeps. -/
theorem run_keeps {Inv : State → Prop} (hstep : ∀ s t, Inv s → step s = .next t → Inv t) :
    ∀ (k : Nat) (s t : State), Inv s → run k s = .next t → Inv t := by
  intro k
  induction k with
  | zero => intro s t hs h; exact Host.Outcome.next.inj h ▸ hs
  | succ k ih =>
    intro s t hs h
    obtain ⟨u, hu, hk⟩ := andThen_eq_next h
    exact ih u t (hstep s u hs hu) hk

/-- After a step that answers a next state, the host's run goes on from there, for any machine. -/
theorem host_run_of_next {M : Host.Core} {k : Nat} {s t : M.State} (h : M.step s = .next t) :
    M.run (k + 1) s = M.run k t := by
  simp only [Host.Core.run, h]

/-- After a step that is refused, the host's run is refused, for any machine. -/
theorem host_run_of_refused {M : Host.Core} {k : Nat} {s : M.State} {r : M.Refusal} (h : M.step s = .refused r) :
    M.run (k + 1) s = .refused r := by
  simp only [Host.Core.run, h]

/-- The model's run is the host's run of the machine. -/
theorem core_run_eq (k : Nat) (s : State) : Host.Core.run core k s = run k s := by
  induction k generalizing s with
  | zero => rfl
  | succ k ih =>
    rw [run_succ]
    cases hs : step s with
    | next t => exact (host_run_of_next (M := core) hs).trans (ih t)
    | fault r => cases r
    | refused r => exact host_run_of_refused (M := core) hs

end Sys2Proof.Machine
end

