-- ==== Sys2Proof/Laws/Words.lean ====
section
/-! SUPPORT. One lemma for each function of the codec: what its result is as a number or as bits, so that no later proof unfolds it. -/

namespace Sys2Proof.Machine

theorem truncBiome_toNat {n : Nat} (b : BitVec n) : (truncBiome b).toNat = b.toNat % 16 := by
  simp [truncBiome]

theorem truncCoord_toNat {n : Nat} (c : BitVec n) : (truncCoord c).toNat = c.toNat % 64 := by
  simp [truncCoord]

theorem packWord_getLsbD {n : Nat} (b x y : BitVec n) (i : Nat) :
    (packWord b x y).getLsbD i =
      if i < 6 then y.getLsbD i else if i < 12 then x.getLsbD (i - 6) else
        decide (i < 16) && b.getLsbD (i - 12) := by
  simp only [packWord, truncBiome, truncCoord, biomeShift, xShift, BitVec.getLsbD_or, BitVec.getLsbD_shiftLeft,
    BitVec.getLsbD_setWidth]
  rcases Nat.lt_or_ge i 6 with h | h
  · simp [h, show i < 12 by omega, show i < 16 by omega]
  rcases Nat.lt_or_ge i 12 with h2 | h2
  · simp [h2, show ¬ i < 6 by omega, show i < 16 by omega, show i - 6 < 6 by omega, show i - 6 < 16 by omega]
  rcases Nat.lt_or_ge i 16 with h3 | h3
  · simp [h3, show ¬ i < 6 by omega, show ¬ i < 12 by omega, show ¬ i - 6 < 6 by omega, show i - 12 < 4 by omega,
      show i - 12 < 16 by omega]
  · simp [show ¬ i < 16 by omega, show ¬ i < 6 by omega, show ¬ i < 12 by omega]

theorem selectBiome_getLsbD (w : PackedWord) (i : Nat) :
    (selectBiome w).getLsbD i = (decide (i < 4) && w.getLsbD (12 + i)) := by
  rcases Nat.lt_or_ge i 4 with h | h
  · interval_cases i <;> simp [selectBiome, biomeMask, biomeShift]
  · simp [selectBiome, show ¬ i < 4 by omega]

theorem selectX_getLsbD (w : PackedWord) (i : Nat) :
    (selectX w).getLsbD i = (decide (i < 6) && w.getLsbD (6 + i)) := by
  rcases Nat.lt_or_ge i 6 with h | h
  · interval_cases i <;> simp [selectX, xMask, xShift]
  · simp [selectX, show ¬ i < 6 by omega]

theorem selectY_getLsbD (w : PackedWord) (i : Nat) :
    (selectY w).getLsbD i = (decide (i < 6) && w.getLsbD i) := by
  rcases Nat.lt_or_ge i 6 with h | h
  · interval_cases i <;> simp [selectY, yMask]
  · simp [selectY, show ¬ i < 6 by omega]

/-- The bits of a word joined from two bytes: the first byte is the low one (20_memory.md R23). -/
theorem wordOfBytes_getLsbD (low high : Byte) (i : Nat) :
    (wordOfBytes low high).getLsbD i = if i < 8 then low.getLsbD i else high.getLsbD (i - 8) := by
  show (high ++ low : BitVec (8 + 8)).getLsbD i = _
  rw [BitVec.getLsbD_append]

end Sys2Proof.Machine
end

