-- ==== Sys2Proof/Tests/Slice0.lean ====
section
/-! SUPPORT. Tests of the model, with results from the tables of the spec, and for each statement with hypotheses a witness that meets them. -/

namespace Sys2Proof.Tests

open Sys2Proof.Machine

/-- The next state of an outcome, if it has one. -/
def nextOf (o : Host.Outcome State Fault Refusal) : Option State :=
  match o with
  | .next s => some s
  | .fault _ => none
  | .refused _ => none

/-- A state whose ports carry the record `(5, 10, 20)` and the word 0xBEEF, with one sample of each already taken. -/
def busy : State := ⟨5, 10, 20, 0xBEEF, [], [0x5294], [⟨11, 59, 47⟩]⟩

/-- The reset state with a schedule. -/
def scheduled (l : List Stimulus) : State := { State.reset with schedule := l }

/-! ### Stimuli, written out from the operand formats R38 and R39, low byte first (R23) -/

theorem test_decode_stimulus_enc :
    decodeStimulus [0x34, 0x12, 0x78, 0x56, 0xBC, 0x9A] = .ok (.encode 0x1234 0x5678 0x9ABC) := by rfl

theorem test_decode_stimulus_dec : decodeStimulus [0x94, 0x52] = .ok (.decode 0x5294) := by rfl

theorem test_decode_stimulus_rejects : decodeStimulus [0x94, 0x52, 0x00] = .error (.noSuchFormat 3) := by rfl

theorem test_encode_stimulus_dec : encodeStimulus (.decode 0xA56A) = [0x6A, 0xA5] := by decide

theorem test_table_word_dec : decodeTableWord 16 0x5294 = some (.decode 0x5294) := by decide

theorem test_table_word_enc : decodeTableWord 48 0x0014_000A_0005 = some (.encode 5 10 20) := by decide

theorem test_table_word_too_long : decodeTableWord 49 0 = none := by decide

/-! ### Well-formedness: the one check, and a term it refuses (R84) -/

theorem test_double_loopback_ill_formed : Stimulus.wellFormed ⟨.fromDecoder, .fromEncoder⟩ = false := by decide

theorem test_single_loopbacks_well_formed :
    (Stimulus.wellFormed ⟨.driven 1 2 3, .fromEncoder⟩ && Stimulus.wellFormed ⟨.fromDecoder, .driven 7⟩) = true := by
  decide

/-! ### The operations, from the tables V1 and V2 of 95_test_vectors.md -/

/-- V1 row 30: ignored bits set on every operand. -/
theorem test_encode_ignores_high_bits :
    (nextOf (exec (.encode 0x1234 0x5678 0x9ABC) busy)).map State.encObserved = some [0x5294, 0x4E3C] := by decide

/-- V1 row 15: three different fields, so a swapped operand shows. -/
theorem test_encode_order_of_fields :
    (nextOf (exec (.encode 7 32 33) busy)).map State.encWord = some 0x7821 := by decide

/-- V2 row 6: bit 15 is no sign. -/
theorem test_decode_bit_15_is_no_sign :
    (nextOf (exec (.decode 0x8000) busy)).map State.decRecord = some ⟨8, 0, 0⟩ := by decide

/-- V2 row 15: three different fields. -/
theorem test_decode_order_of_fields :
    (nextOf (exec (.decode 0xABCD) busy)).map State.decObserved = some [⟨11, 59, 47⟩, ⟨10, 47, 13⟩] := by decide

/-! ### The step -/

/-- Program P5, line 1: both groups at one instant. -/
theorem test_both_groups :
    (nextOf (step (scheduled [⟨.driven 7 32 33, .driven 0xABCD⟩]))).map
      (fun t => (t.encWord, t.decRecord)) = some (0x7821, ⟨10, 47, 13⟩) := by decide

/-- Table V3: the record (17, 65, 66) through both operations. -/
theorem test_encoder_into_decoder :
    (nextOf (step (scheduled [⟨.driven 17 65 66, .fromEncoder⟩]))).map State.decObserved =
      some [⟨1, 1, 2⟩] := by decide

/-- Program P4, lines 1 and 2. -/
theorem test_decoder_into_encoder :
    (nextOf (step (scheduled [⟨.fromDecoder, .driven 0xBEEF⟩]))).map State.encObserved = some [0xBEEF] := by decide

/-- The standing word 0x5294 of `(5, 10, 20)` goes to the decoder (worked example of R54), and the encoder is not sampled. -/
theorem test_held_encoder_into_decoder :
    (nextOf (step { busy with schedule := [⟨.held, .fromEncoder⟩] })).map
      (fun t => (t.decObserved, t.encObserved)) = some ([⟨11, 59, 47⟩, ⟨5, 10, 20⟩], [0x5294]) := by decide

/-- The standing word 0xBEEF goes through the decoder into the encoder (program P4), and the decoder is not sampled. -/
theorem test_held_decoder_into_encoder :
    (nextOf (step { busy with schedule := [⟨.fromDecoder, .held⟩] })).map
      (fun t => (t.encObserved, t.decObserved)) = some ([0x5294, 0xBEEF], [⟨11, 59, 47⟩]) := by decide

theorem test_double_loopback_refused :
    step (scheduled [⟨.fromDecoder, .fromEncoder⟩]) = .refused .combinationalLoop := by rfl

theorem test_fetched_word_runs :
    (nextOf (step (State.reset.withFetchWord 48 0x0014_000A_0005))).map State.encObserved = some [0x5294] := by decide

/-- The cells of program P1 are traversed with `x` fastest. -/
theorem test_row_major_order : rowMajor 3 2 (fun x y => x + 3 * y) = [0, 1, 2, 3, 4, 5] := by decide

/-! ### Witnesses: the hypotheses of each statement are met -/

theorem witness_WordLayout : inRange (recordOfPorts (15 : PortValue) 63 63) := by decide

theorem witness_EncodeFrame : ∃ t, exec (.encode 16 64 64) busy = .next t := ⟨_, rfl⟩

theorem witness_OperandTruncation : (15 : PortValue).toNat < 16 ∧ (63 : PortValue).toNat < 64 := by decide

theorem witness_PlacementWithoutCarry : (63 : PortValue).toNat = 63 := by decide

theorem witness_MaskOrdersAgree : 16 ≤ 16 := by decide

theorem witness_EncodeIsPure_ports :
    busy.encBiomeId = (driveDecoder 0 busy).encBiomeId ∧ busy.encCenterX = (driveDecoder 0 busy).encCenterX ∧
      busy.encCenterY = (driveDecoder 0 busy).encCenterY ∧ busy ≠ driveDecoder 0 busy := by decide

theorem witness_EncodeIsPure_exec :
    (∃ t, exec (.encode 16 64 64) busy = .next t) ∧ ∃ t, exec (.encode 16 64 64) State.reset = .next t :=
  ⟨⟨_, rfl⟩, ⟨_, rfl⟩⟩

theorem witness_DecodeComputesTheRecord :
    (∃ t, exec (.decode 0x8000) busy = .next t) ∧ (0x8000 : PackedWord).getLsbD 15 = true :=
  ⟨⟨_, rfl⟩, by decide⟩

theorem witness_DecodeFrame : ∃ t, exec (.decode 0xFFFF) busy = .next t := ⟨_, rfl⟩

theorem witness_DecodeIsPure_port :
    busy.decWord = (driveEncoder 0 0 0 busy).decWord ∧ busy ≠ driveEncoder 0 0 0 busy := by decide

theorem witness_DecodeIsPure_exec :
    (∃ t, exec (.decode 0x8000) busy = .next t) ∧ ∃ t, exec (.decode 0x8000) State.reset = .next t :=
  ⟨⟨_, rfl⟩, ⟨_, rfl⟩⟩

theorem witness_RoundTripInRange : inRange (recordOfPorts (15 : PortValue) 0 63) := by decide

theorem witness_BijectionOnInRangeRecords : inRange ⟨15, 63, 63⟩ ∧ recordWord ⟨15, 63, 63⟩ = 0xFFFF := by decide

theorem witness_BijectionOnInRangeRecords_injective : unpackWord 0x8000 = unpackWord 0x8000 := rfl

theorem witness_WordOrderIsLexicographic :
    inRange ⟨0, 0, 63⟩ ∧ inRange ⟨0, 1, 0⟩ ∧ (recordWord ⟨0, 0, 63⟩).toNat < (recordWord ⟨0, 1, 0⟩).toNat := by
  decide

theorem witness_PortEncodeRefinesRecordEncode : 7 ≤ 7 := by decide

theorem witness_BothGroupsAtOneInstant :
    (scheduled [⟨.driven 7 32 33, .driven 0xABCD⟩]).schedule = ⟨.driven 7 32 33, .driven 0xABCD⟩ :: [] := rfl

theorem witness_EncoderIntoDecoder :
    (scheduled [⟨.driven 16 64 64, .fromEncoder⟩]).schedule = ⟨.driven 16 64 64, .fromEncoder⟩ :: [] := rfl

theorem witness_DecoderIntoEncoder :
    (scheduled [⟨.fromDecoder, .driven 0x8000⟩]).schedule = ⟨.fromDecoder, .driven 0x8000⟩ :: [] := rfl

theorem witness_EncoderIntoDecoder_held :
    ({ busy with schedule := [⟨.held, .fromEncoder⟩] } : State).schedule = ⟨.held, .fromEncoder⟩ :: [] := rfl

theorem witness_DecoderIntoEncoder_held :
    ({ busy with schedule := [⟨.fromDecoder, .held⟩] } : State).schedule = ⟨.fromDecoder, .held⟩ :: [] := rfl

theorem witness_HeldStimulusOnlyMovesOn :
    ({ busy with schedule := [⟨.held, .held⟩] } : State).schedule = ⟨.held, .held⟩ :: [] := rfl

theorem witness_OnlyTheDoubleLoopbackIsRefused :
    (scheduled [⟨.fromDecoder, .fromEncoder⟩]).schedule = ⟨.fromDecoder, .fromEncoder⟩ :: [] := rfl

theorem witness_OutputsStandInEveryState :
    ∃ s : State, s.encBiomeId = 0 ∧ s.encCenterX = 0 ∧ s.encCenterY = 0 ∧ s.decWord = 0x0000#16 :=
  ⟨⟨0, 0, 0, 0, [], [0xFFFF], []⟩, by decide⟩

theorem witness_RepeatedOperationIsIdempotent :
    ∃ t u, exec (.encode 9 9 9) busy = .next t ∧ exec (.encode 9 9 9) t = .next u := ⟨_, _, rfl, rfl⟩

theorem witness_RepeatedOperationIsIdempotent_decode :
    ∃ t u, exec (.decode 0xAAAA) busy = .next t ∧ exec (.decode 0xAAAA) t = .next u := ⟨_, _, rfl, rfl⟩

theorem witness_StepRunsThePresentedOperation :
    (scheduled [stimulusOf (.decode 0xC0DE), ⟨.held, .held⟩]).schedule =
      stimulusOf (.decode 0xC0DE) :: [⟨.held, .held⟩] := rfl

theorem witness_StepRunsTheFetchedWord :
    decodeTableWord 16 0 = some (.decode 0) ∧ decodeTableWord 17 0 = some (.encode 0 0 0) ∧
      decodeTableWord 48 0xFFFFFFFFFFFF = some (.encode 0xFFFF 0xFFFF 0xFFFF) := by decide

theorem witness_IdleStepChangesNothing : busy.schedule = [] := rfl

theorem witness_StepsCompleteUnderTheDuty : scheduleOk (scheduled [⟨.fromDecoder, .driven 1⟩, ⟨.held, .fromEncoder⟩]) := by
  decide

theorem busy_samplesStand : samplesStand busy :=
  ⟨fun w h => (Option.some.inj h).symm.trans (by decide), fun d h => (Option.some.inj h).symm.trans (by decide)⟩

theorem witness_EveryStepKeepsTheDutyAndTheSamples :
    ∃ s t, scheduleOk s ∧ samplesStand s ∧ s.encObserved ≠ [] ∧ s.decObserved ≠ [] ∧ step s = .next t ∧ s ≠ t :=
  ⟨{ busy with schedule := [⟨.driven 1 2 3, .held⟩] }, _, by decide, busy_samplesStand, by decide, by decide, rfl,
    by decide⟩

theorem witness_ScheduleRunsToItsEnd :
    ∃ s, scheduleOk s ∧ samplesStand s ∧ s.schedule ≠ [] :=
  ⟨{ busy with schedule := [⟨.driven 1 2 3, .fromEncoder⟩] }, by decide, busy_samplesStand, by decide⟩

theorem witness_EveryOperationGivesItsOwnResult :
    (scheduled [⟨.driven 5 10 20, .held⟩, ⟨.held, .driven 0x5294⟩]).schedule =
      [Instr.encode 5 10 20, Instr.decode 0x5294].map stimulusOf := by decide

theorem witness_InterleavingDoesNotMatter :
    ∃ (is js : List Instr) (t u : State), is ≠ js ∧ is.filter isEncode = js.filter isEncode ∧
      is.filter (fun i => !isEncode i) = js.filter (fun i => !isEncode i) ∧
      run is.length { busy with schedule := is.map stimulusOf } = .next t ∧
      run js.length { busy with schedule := js.map stimulusOf } = .next u :=
  ⟨[.encode 1 2 3, .decode 4], [.decode 4, .encode 1 2 3], _, _, by decide, by decide, by decide, rfl, rfl⟩

theorem witness_RowMajorPlace : (2 : Nat) < 3 ∧ (1 : Nat) < 2 := by decide

theorem witness_GridPacksAndUnpacks :
    ∃ (words : List PackedWord) (s : State),
      words = (rowMajor 2 1 (fun x _ => ⟨x, 64, 63⟩)).map recordWord ∧
      s.schedule = packSchedule (rowMajor 2 1 (fun x _ => ⟨x, 64, 63⟩)) ++ unpackSchedule words :=
  ⟨_, scheduled _, rfl, rfl⟩

theorem witness_StimulusDecodeOfEncode :
    (Instr.encode 0xFFFF 0 0x8000).wellFormed = true ∧ (Instr.decode 0xFFFF).wellFormed = true := by decide

theorem witness_StimulusEncodeOfDecode :
    decodeStimulus [0xFF, 0xFF] = .ok (.decode 0xFFFF) ∧
      decodeStimulus [1, 0, 2, 0, 3, 0] = .ok (.encode 1 2 3) := ⟨rfl, rfl⟩

theorem witness_FormatToldByLength :
    [0, 0].length = 2 ∧ [0, 0, 0, 0, 0, 0].length = 6 ∧ [0, 0, 0].length ≠ 2 ∧ [0, 0, 0].length ≠ 6 := by decide

end Sys2Proof.Tests
end

section
/-! SUPPORT. The masks of the three fields by their bits, and the two functions of the codec written with them (30_encoding.md R36). -/

namespace Sys2Proof.Machine

/-- A word has no bit from 16 up, so a run of set bits checked below 16 describes every bit number. -/
theorem getLsbD_eq_run_of_lt {m : PackedWord} {lo hi : Nat} (hhi : hi < 16)
    (h : ∀ i < 16, m.getLsbD i = decide (lo ≤ i ∧ i ≤ hi)) (i : Nat) :
    m.getLsbD i = decide (lo ≤ i ∧ i ≤ hi) := by
  rcases Nat.lt_or_ge i 16 with hi16 | hi16
  · exact h i hi16
  · simp [BitVec.getLsbD_of_ge m i hi16, show ¬ i ≤ hi by omega]

theorem biomeMask_getLsbD (i : Nat) : biomeMask.getLsbD i = decide (12 ≤ i ∧ i ≤ 15) :=
  getLsbD_eq_run_of_lt (by decide) (by decide) i

theorem xMask_getLsbD (i : Nat) : xMask.getLsbD i = decide (6 ≤ i ∧ i ≤ 11) :=
  getLsbD_eq_run_of_lt (by decide) (by decide) i

theorem yMask_getLsbD (i : Nat) : yMask.getLsbD i = decide (i ≤ 5) := by
  simpa using getLsbD_eq_run_of_lt (m := yMask) (lo := 0) (hi := 5) (by decide) (by decide) i

/-- ENCODE with the masks after the shifts: the same word as with the truncations before them (R36). -/
theorem packWord_eq_masked {n : Nat} (b x y : BitVec n) :
    packWord b x y =
      ((b.setWidth 16 <<< biomeShift) &&& biomeMask) ||| ((x.setWidth 16 <<< xShift) &&& xMask) |||
        (y.setWidth 16 &&& yMask) := by
  refine BitVec.eq_of_getLsbD_eq fun i hi => ?_
  simp only [packWord_getLsbD, BitVec.getLsbD_or, BitVec.getLsbD_and, BitVec.getLsbD_shiftLeft,
    BitVec.getLsbD_setWidth, biomeMask_getLsbD, xMask_getLsbD, yMask_getLsbD, biomeShift, xShift]
  rcases Nat.lt_or_ge i 6 with hy | hy
  · simp [hi, hy, show i < 12 by omega, show i ≤ 5 by omega]
  rcases Nat.lt_or_ge i 12 with hx | hb
  · simp [hi, hy, hx, show ¬ i < 6 by omega, show ¬ i ≤ 5 by omega, show i ≤ 11 by omega, show i - 6 < 16 by omega]
  · simp [hi, hy, hb, show ¬ i < 6 by omega, show ¬ i < 12 by omega, show ¬ i ≤ 5 by omega, show ¬ i ≤ 11 by omega,
      show i ≤ 15 by omega, show i - 12 < 16 by omega]

/-- What mask and shift leave of a word fits in 4 bits, so the port `biome_id` cuts nothing off (R36). -/
theorem selectBiome_setWidth (w : PackedWord) :
    (selectBiome w).setWidth 16 = (w &&& biomeMask) >>> biomeShift := by
  refine BitVec.eq_of_getLsbD_eq fun i hi => ?_
  have field : 12 ≤ 12 + i ∧ 12 + i ≤ 15 ↔ i < 4 := by omega
  simp only [BitVec.getLsbD_setWidth, selectBiome_getLsbD, BitVec.getLsbD_ushiftRight, BitVec.getLsbD_and,
    biomeMask_getLsbD, biomeShift, field, hi, decide_true, Bool.true_and, Bool.and_comm]

/-- What mask and shift leave of a word fits in 6 bits, so the port `center_x` cuts nothing off (R36). -/
theorem selectX_setWidth (w : PackedWord) : (selectX w).setWidth 16 = (w &&& xMask) >>> xShift := by
  refine BitVec.eq_of_getLsbD_eq fun i hi => ?_
  have field : 6 ≤ 6 + i ∧ 6 + i ≤ 11 ↔ i < 6 := by omega
  simp only [BitVec.getLsbD_setWidth, selectX_getLsbD, BitVec.getLsbD_ushiftRight, BitVec.getLsbD_and,
    xMask_getLsbD, xShift, field, hi, decide_true, Bool.true_and, Bool.and_comm]

/-- What the mask leaves of a word fits in 6 bits, so the port `center_y` cuts nothing off (R36). -/
theorem selectY_setWidth (w : PackedWord) : (selectY w).setWidth 16 = w &&& yMask := by
  refine BitVec.eq_of_getLsbD_eq fun i hi => ?_
  have field : i ≤ 5 ↔ i < 6 := by omega
  simp only [BitVec.getLsbD_setWidth, selectY_getLsbD, BitVec.getLsbD_and, yMask_getLsbD, field, hi, decide_true,
    Bool.true_and, Bool.and_comm]

/-- Settles O2: the masks by their bits, their numbers by evaluation, and the two functions written with the masks. -/
theorem masksPartitionTheWord : Obligations.MasksPartitionTheWord :=
  ⟨biomeMask_getLsbD, xMask_getLsbD, yMask_getLsbD,
    by decide, by decide, by decide, by decide, rfl, rfl, rfl, rfl, rfl, rfl, rfl,
    fun _ => packWord_eq_masked,
    fun w => ⟨selectBiome_setWidth w, selectX_setWidth w, selectY_setWidth w⟩⟩

end Sys2Proof.Machine
end

section
/-! SUPPORT. ENCODE by its word: the completion of the operation said once, the word as a concatenation and as a number, and its truncated operands as what it is made of and what decodes from it (40_encode.md R45, R46, R52). -/

namespace Sys2Proof.Machine

/-- ENCODE completes for every state and every operands: it drives the three inputs, then samples (R44). -/
theorem exec_encode (b x y : PortValue) (s : State) :
    exec (.encode b x y) s = .next (sampleEncoder (driveEncoder b x y s)) := rfl

/-- After an ENCODE the port `enc_word` shows the word of its operands, whatever the state was before. -/
theorem encWord_of_exec_encode {b x y : PortValue} {s t : State} (h : exec (.encode b x y) s = .next t) :
    t.encWord = packWord b x y :=
  (encodesTo_iff.mp ⟨t, h, rfl⟩).symm

/-- The three placed fields are the concatenation of the truncated operands, `biome_id` the highest (R45, R47). -/
theorem packWord_eq_append {n : Nat} (b x y : BitVec n) :
    packWord b x y = b.setWidth 4 ++ x.setWidth 6 ++ y.setWidth 6 := by
  refine BitVec.eq_of_getLsbD_eq fun i hi => ?_
  simp only [packWord_getLsbD, BitVec.getLsbD_append, BitVec.getLsbD_setWidth]
  rcases Nat.lt_or_ge i 6 with hy | hy
  · simp [hy]
  rcases Nat.lt_or_ge i 12 with hx | hb
  · simp [hx, show ¬ i < 6 by omega, show i - 6 < 6 by omega]
  · simp [hi, show ¬ i < 6 by omega, show ¬ i < 12 by omega, show ¬ i - 6 < 6 by omega, Nat.sub_sub,
      show i - 12 < 4 by omega]

/-- A concatenation as a number: the low part lies below the high part, so nothing is carried. -/
theorem toNat_append_eq_add {m n : Nat} (hi : BitVec m) (lo : BitVec n) :
    (hi ++ lo).toNat = hi.toNat * 2 ^ n + lo.toNat := by
  rw [BitVec.toNat_append, ← Nat.shiftLeft_add_eq_or_of_lt lo.isLt, Nat.shiftLeft_eq]

/-- The word as a number, the last line of R45. -/
theorem packWord_toNat {n : Nat} (b x y : BitVec n) :
    (packWord b x y).toNat = b.toNat % 16 * 4096 + x.toNat % 64 * 64 + y.toNat % 64 := by
  rw [packWord_eq_append, toNat_append_eq_add, toNat_append_eq_add]
  simp only [BitVec.toNat_setWidth]
  omega

/-- The word sees of its operands the truncated values only, at whatever widths the operands stand (R46). -/
theorem packWord_congr {m n : Nat} {b x y : BitVec m} {b' x' y' : BitVec n}
    (hb : truncBiome b = truncBiome b') (hx : truncCoord x = truncCoord x') (hy : truncCoord y = truncCoord y') :
    packWord b x y = packWord b' x' y' := by
  simp only [packWord, hb, hx, hy]

/-- A field of 4 bits carried on a port of 16 truncates back to itself (R46). -/
theorem truncBiome_zextPort (v : BitVec 4) : truncBiome (zextPort v) = v :=
  BitVec.setWidth_setWidth_of_le v (by decide) |>.trans (BitVec.setWidth_eq v)

/-- A field of 6 bits carried on a port of 16 truncates back to itself (R46). -/
theorem truncCoord_zextPort (v : BitVec 6) : truncCoord (zextPort v) = v :=
  BitVec.setWidth_setWidth_of_le v (by decide) |>.trans (BitVec.setWidth_eq v)

theorem truncBiome_getLsbD {n : Nat} (b : BitVec n) (i : Nat) :
    (truncBiome b).getLsbD i = (decide (i < 4) && b.getLsbD i) := BitVec.getLsbD_setWidth ..

theorem truncCoord_getLsbD {n : Nat} (c : BitVec n) (i : Nat) :
    (truncCoord c).getLsbD i = (decide (i < 6) && c.getLsbD i) := BitVec.getLsbD_setWidth ..

theorem selectBiome_packWord {n : Nat} (b x y : BitVec n) : selectBiome (packWord b x y) = truncBiome b := by
  refine BitVec.eq_of_getLsbD_eq fun i hi => ?_
  rw [selectBiome_getLsbD, packWord_getLsbD, truncBiome_getLsbD]
  simp [show ¬ 12 + i < 6 by omega, show 12 + i < 16 by omega, hi]

theorem selectX_packWord {n : Nat} (b x y : BitVec n) : selectX (packWord b x y) = truncCoord x := by
  refine BitVec.eq_of_getLsbD_eq fun i _ => ?_
  rw [selectX_getLsbD, packWord_getLsbD, truncCoord_getLsbD]
  simp [show 6 + i < 12 by omega]

theorem selectY_packWord {n : Nat} (b x y : BitVec n) : selectY (packWord b x y) = truncCoord y := by
  refine BitVec.eq_of_getLsbD_eq fun i hi => ?_
  rw [selectY_getLsbD, packWord_getLsbD, truncCoord_getLsbD]
  simp [hi]

/-- What decodes from a word are the truncated operands it was made of (R46). -/
theorem unpackWord_packWord {n : Nat} (b x y : BitVec n) :
    unpackWord (packWord b x y) = ⟨truncBiome b, truncCoord x, truncCoord y⟩ := by
  simp only [unpackWord, selectBiome_packWord, selectX_packWord, selectY_packWord]

/-- Settles O4: the state is that of `exec_encode`, and its word is `packWord` of the operands, as an OR by definition, as a concatenation and as a number by their lemmas. -/
theorem encodeComputesTheWord : Obligations.EncodeComputesTheWord := by
  refine ⟨fun s b x y => ⟨_, exec_encode b x y s, rfl, rfl, rfl, rfl, ?_, ?_, rfl, rfl⟩, fun s => ?_⟩
  · exact packWord_eq_append b x y
  · exact packWord_toNat b x y
  · simp only [encodesTo_iff]
    decide

/-- Settles O7: the truncations by their number and by their bits, and the word by its truncated operands. -/
theorem operandTruncation : Obligations.OperandTruncation := by
  refine ⟨fun _ v => ⟨truncBiome_toNat v, truncCoord_toNat v⟩, fun _ v => ⟨fun i hi => ?_, fun i hi => ?_⟩,
    fun _ v => ⟨fun hv => ?_, fun hv => ?_⟩, by decide, by decide, by decide,
    fun _ b x y => ⟨?_, unpackWord_packWord b x y⟩⟩
  · simp only [truncBiome_getLsbD, hi, decide_true, Bool.true_and]
  · simp only [truncCoord_getLsbD, hi, decide_true, Bool.true_and]
  · exact (truncBiome_toNat v).trans (Nat.mod_eq_of_lt hv)
  · exact (truncCoord_toNat v).trans (Nat.mod_eq_of_lt hv)
  · exact packWord_congr (truncBiome_zextPort _).symm (truncCoord_zextPort _).symm (truncCoord_zextPort _).symm

/-- Settles O12: the port sees the three encoder inputs only, and after an ENCODE it shows the word of the operands. -/
theorem encodeIsPure : Obligations.EncodeIsPure :=
  ⟨fun _ _ => encWord_congr,
    fun _ _ _ _ _ _ _ h1 h2 => (encWord_of_exec_encode h1).trans (encWord_of_exec_encode h2).symm⟩

end Sys2Proof.Machine
end

section
/-! SUPPORT. DECODE by its record: the completion of the operation said once, each field as a slice of the word, and what bit 15 makes of `biome_id` (41_decode.md R54, R59). -/

namespace Sys2Proof.Machine

/-- DECODE completes for every state and every word: it drives `dec_word`, then samples (R44). -/
theorem exec_decode (w : PackedWord) (s : State) :
    exec (.decode w) s = .next (sampleDecoder (driveDecoder w s)) := rfl

/-- After a DECODE of `w` the port `dec_word` carries `w`. -/
theorem decWord_of_exec_decode {w : PackedWord} {s t : State} (h : exec (.decode w) s = .next t) :
    t.decWord = w := by
  cases h
  rfl

/-- After a DECODE the decoder ports show the record of its word, whatever the state was before. -/
theorem decRecord_of_exec_decode {w : PackedWord} {s t : State} (h : exec (.decode w) s = .next t) :
    t.decRecord = unpackWord w :=
  congrArg unpackWord (decWord_of_exec_decode h)

/-- Mask and shift select bits 15 to 12 (R54). -/
theorem selectBiome_eq_extractLsb' (w : PackedWord) : selectBiome w = w.extractLsb' 12 4 :=
  BitVec.eq_of_getLsbD_eq fun i _ => (selectBiome_getLsbD w i).trans (BitVec.getLsbD_extractLsb' ..).symm

/-- Mask and shift select bits 11 to 6 (R54). -/
theorem selectX_eq_extractLsb' (w : PackedWord) : selectX w = w.extractLsb' 6 6 :=
  BitVec.eq_of_getLsbD_eq fun i _ => (selectX_getLsbD w i).trans (BitVec.getLsbD_extractLsb' ..).symm

/-- The mask selects bits 5 to 0 (R54). -/
theorem selectY_eq_extractLsb' (w : PackedWord) : selectY w = w.extractLsb' 0 6 :=
  BitVec.eq_of_getLsbD_eq fun i _ => by
    rw [selectY_getLsbD, BitVec.getLsbD_extractLsb', Nat.zero_add]

/-- Bit 15 is the highest bit of `biome_id`, of weight 8, and no sign (R54). -/
theorem eight_le_selectBiome {w : PackedWord} (h : w.getLsbD 15 = true) : 8 ≤ (selectBiome w).toNat := by
  have top : (selectBiome w).getLsbD 3 = true := (selectBiome_getLsbD w 3).trans h
  exact Nat.ge_two_pow_of_testBit top

/-- Settles O14: the state is that of `exec_decode`, and each of its fields is mask and shift by `select*_setWidth` and a slice by `select*_eq_extractLsb'`. -/
theorem decodeComputesTheRecord : Obligations.DecodeComputesTheRecord := by
  refine ⟨fun s w => ⟨_, exec_decode w s, rfl,
    selectBiome_setWidth w, selectBiome_eq_extractLsb' w, selectX_setWidth w, selectX_eq_extractLsb' w,
    selectY_setWidth w, selectY_eq_extractLsb' w, rfl, rfl, rfl, rfl⟩, fun s w t h hbit => ?_, fun s => ?_⟩
  · have hb : t.decBiomeId = selectBiome w := congrArg DecodedRecord.biomeId (decRecord_of_exec_decode h)
    exact hb ▸ eight_le_selectBiome hbit
  · simp only [decodesTo_iff]
    decide

/-- Settles O20: the three ports are the fields of the record that `dec_word` alone gives, and after a DECODE that record is the word's. -/
theorem decodeIsPure : Obligations.DecodeIsPure :=
  ⟨fun _ _ hw =>
      have hr := decRecord_congr hw
      ⟨congrArg DecodedRecord.biomeId hr, congrArg DecodedRecord.centerX hr, congrArg DecodedRecord.centerY hr⟩,
    fun _ _ _ _ _ h1 h2 => (decRecord_of_exec_decode h1).trans (decRecord_of_exec_decode h2).symm⟩

end Sys2Proof.Machine
end

section
/-! SUPPORT. The laws that tie the two operations together: a record encoded on the ports and decoded again, the same for a record of fields of any size, and one field changed alone (42_laws.md R61, R62, R64). -/

namespace Sys2Proof.Machine

/-- What decodes from a word, as unsigned integers, is the operands reduced modulo their value spaces (R62). -/
theorem recordOfDecoded_unpackWord_packWord {n : Nat} (b x y : BitVec n) :
    recordOfDecoded (unpackWord (packWord b x y)) = normRecord (recordOfPorts b x y) := by
  simp only [unpackWord_packWord, recordOfDecoded, truncBiome_toNat, truncCoord_toNat, normRecord, recordOfPorts]

/-- Reducing an in-range record changes nothing. -/
theorem normRecord_of_inRange {r : ChunkRecord} (h : inRange r) : normRecord r = r := by
  obtain ⟨hb, hx, hy⟩ := h
  simp only [normRecord, Nat.mod_eq_of_lt (Nat.lt_succ_of_le hb), Nat.mod_eq_of_lt (Nat.lt_succ_of_le hx),
    Nat.mod_eq_of_lt (Nat.lt_succ_of_le hy)]

/-- The word of a record of unbounded fields as a number: it is below 2^16, so nothing is cut off (R45). -/
theorem recordWord_toNat (r : ChunkRecord) :
    (recordWord r).toNat = r.biomeId % 16 * 4096 + r.centerX % 64 * 64 + r.centerY % 64 :=
  (BitVec.toNat_ofNat ..).trans (Nat.mod_eq_of_lt (by omega))

/-- The word of the operands is the word of the record they carry, at every operand width (R45). -/
theorem recordWord_recordOfPorts {n : Nat} (b x y : BitVec n) :
    recordWord (recordOfPorts b x y) = packWord b x y :=
  BitVec.eq_of_toNat_eq ((recordWord_toNat _).trans (packWord_toNat b x y).symm)

/-- The word of a record sees its reduced fields only (R62). -/
theorem recordWord_congr {r q : ChunkRecord} (h : normRecord r = normRecord q) : recordWord r = recordWord q := by
  obtain ⟨hb, hx, hy⟩ := ChunkRecord.mk.inj h
  simp only [recordWord, hb, hx, hy]

/-- A port of 6 bits or more carries of each field at least what the codec keeps of it (R46). -/
theorem normRecord_recordOfPorts_ofNat {n : Nat} (hn : 6 ≤ n) (r : ChunkRecord) :
    normRecord (recordOfPorts (BitVec.ofNat n r.biomeId) (BitVec.ofNat n r.centerX) (BitVec.ofNat n r.centerY)) =
      normRecord r := by
  have h16 : 16 ∣ 2 ^ n := pow_dvd_pow 2 (show 4 ≤ n by omega)
  have h64 : 64 ∣ 2 ^ n := pow_dvd_pow 2 hn
  simp only [normRecord, recordOfPorts, BitVec.toNat_ofNat, Nat.mod_mod_of_dvd _ h16, Nat.mod_mod_of_dvd _ h64]

/-- The word of a record of fields of any size is what ENCODE makes of the fields as far as ports of 6 bits or more carry them (R45). -/
theorem recordWord_eq_packWord_ofNat {n : Nat} (hn : 6 ≤ n) (r : ChunkRecord) :
    recordWord r = packWord (BitVec.ofNat n r.biomeId) (BitVec.ofNat n r.centerX) (BitVec.ofNat n r.centerY) :=
  (recordWord_congr (normRecord_recordOfPorts_ofNat hn r).symm).trans (recordWord_recordOfPorts ..)

/-- Encoding and decoding a record of fields of any size reduces each field: ports of 6 bits already carry what counts of it (R62). -/
theorem recordOfDecoded_unpackWord_recordWord (r : ChunkRecord) :
    recordOfDecoded (unpackWord (recordWord r)) = normRecord r := by
  rw [recordWord_eq_packWord_ofNat le_rfl, recordOfDecoded_unpackWord_packWord,
    normRecord_recordOfPorts_ofNat le_rfl]

/-- ENCODE, then DECODE of what stands on `enc_word`: both complete, and the decoder ports show the operands reduced (R44, R62). -/
theorem exec_encode_decode (s : State) (b x y : PortValue) :
    ∃ t u, exec (.encode b x y) s = .next t ∧ exec (.decode t.encWord) t = .next u ∧
      recordOfDecoded u.decRecord = normRecord (recordOfPorts b x y) := by
  refine ⟨_, _, exec_encode b x y s, exec_decode _ _, ?_⟩
  simp only [sampleDecoder_decRecord, driveDecoder_decRecord, sampleEncoder_encWord, driveEncoder_encWord,
    recordOfDecoded_unpackWord_packWord]

/-- Settles O23: the decoder ports show the reduced record, which in range is the record itself. -/
theorem roundTripInRange : Obligations.RoundTripInRange := by
  intro s b x y hr
  obtain ⟨t, u, ht, hu, hdec⟩ := exec_encode_decode s b x y
  exact ⟨t, u, ht, hu, hdec.trans (normRecord_of_inRange hr)⟩

/-- Settles O24: the decoder ports show the reduced record, field by field, and a record of fields of any size is one that ports carry. -/
theorem roundTripAnyRecord : Obligations.RoundTripAnyRecord := by
  refine ⟨fun s b x y => ?_, recordOfDecoded_unpackWord_recordWord⟩
  obtain ⟨t, u, ht, hu, hdec⟩ := exec_encode_decode s b x y
  exact ⟨t, u, ht, hu, ChunkRecord.mk.inj hdec⟩

section
variable {n : Nat} (b x y : BitVec n) {i : Nat}

/-- Above bit 5 a word does not see `center_y` (R64). -/
theorem packWord_getLsbD_of_ge_six (h : 6 ≤ i) (y' : BitVec n) :
    (packWord b x y').getLsbD i = (packWord b x y).getLsbD i := by
  simp only [packWord_getLsbD, show ¬ i < 6 by omega, if_false]

/-- Outside bits 11 to 6 a word does not see `center_x` (R64). -/
theorem packWord_getLsbD_of_lt_six_or_ge_twelve (h : i < 6 ∨ 12 ≤ i) (x' : BitVec n) :
    (packWord b x' y).getLsbD i = (packWord b x y).getLsbD i := by
  rcases h with h | h
  · simp only [packWord_getLsbD, h, if_true]
  · simp only [packWord_getLsbD, show ¬ i < 12 by omega, if_false]

/-- Below bit 12 a word does not see `biome_id` (R64). -/
theorem packWord_getLsbD_of_lt_twelve (h : i < 12) (b' : BitVec n) :
    (packWord b' x y).getLsbD i = (packWord b x y).getLsbD i := by
  simp only [packWord_getLsbD, h, if_true]

end

/-- Settles O26: each decoded field is its own operand truncated, and each bit of the word is a bit of one operand. -/
theorem bitIsolation : Obligations.BitIsolation := by
  intro n b x y b2 x2 y2
  simp only [unpackWord_packWord, true_and]
  exact ⟨fun _ hi => packWord_getLsbD_of_ge_six b x y hi y2,
    fun _ hi => packWord_getLsbD_of_lt_six_or_ge_twelve b x y hi x2,
    fun _ hi => packWord_getLsbD_of_lt_twelve b x y hi b2⟩

end Sys2Proof.Machine
end

section
/-! SUPPORT. Neither operation raises an exception or reports an error: each completes in every state (60_exceptions.md R69, R70). -/

namespace Sys2Proof.Machine

/-- Settles O22: `exec_encode` and `exec_decode` name the next state, for every state and every operand. -/
theorem operationsAlwaysSucceed : Obligations.OperationsAlwaysSucceed :=
  ⟨fun s b x y => ⟨_, exec_encode b x y s⟩, fun s w => ⟨_, exec_decode w s⟩⟩

end Sys2Proof.Machine
end

section
/-! SUPPORT. The word by its fields: the layout of R36, the operand bits it does not see, the orders of mask and shift, and the corner cases of ENCODE (30_encoding.md section 1, 40_encode.md section 2). -/

namespace Sys2Proof.Machine

/-- Settles O1: the constants by evaluation, the ranges as strict bounds, and the moduli by definition. -/
theorem constantsOfTheLayout : Obligations.ConstantsOfTheLayout := by
  refine ⟨rfl, rfl, rfl, rfl, rfl, rfl, rfl, rfl, rfl, rfl, fun r => ?_, fun _ => rfl⟩
  have hb : r.biomeId ≤ 15 ↔ r.biomeId < 2 ^ Config.biomeW := Nat.lt_succ_iff.symm
  have hx : r.centerX ≤ 63 ↔ r.centerX < 2 ^ Config.coordW := Nat.lt_succ_iff.symm
  have hy : r.centerY ≤ 63 ↔ r.centerY < 2 ^ Config.coordW := Nat.lt_succ_iff.symm
  rw [inRange, hb, hx, hy]

/-- Settles O3: each slice of a word is what decodes from it, and an in-range operand is its own remainder. -/
theorem wordLayout : Obligations.WordLayout := by
  intro n b x y
  refine ⟨(selectBiome_eq_extractLsb' _).symm.trans (selectBiome_packWord b x y),
    (selectX_eq_extractLsb' _).symm.trans (selectX_packWord b x y),
    (selectY_eq_extractLsb' _).symm.trans (selectY_packWord b x y), fun hr => ?_⟩
  obtain ⟨hb, hx, hy⟩ := ChunkRecord.mk.inj (normRecord_of_inRange hr)
  rw [packWord_toNat, hb, hx, hy]

/-- 63 is the highest coordinate: adding 1 to it leaves 0 in the field, at every operand width that carries it. -/
theorem setWidth_add_one_of_toNat_eq_63 {n : Nat} {y : BitVec n} (hy : y.toNat = 63) :
    (y + 1).setWidth 6 = (0 : BitVec 6) := by
  have hn : 6 ≤ n := by
    by_contra hlt
    have hpow : 2 ^ n ≤ 2 ^ 5 := Nat.pow_le_pow_right (by decide) (by omega)
    have hlow := y.isLt
    omega
  have hfield : y.setWidth 6 = 63#6 := BitVec.eq_of_toNat_eq (by simp [hy])
  rw [BitVec.setWidth_add y 1 hn, hfield]
  refine BitVec.eq_of_toNat_eq ?_
  have hone : 1 < 2 ^ n := Nat.one_lt_two_pow (by omega)
  simp [Nat.mod_eq_of_lt hone]

/-- Settles O8: the concatenation and the sum by their lemmas; the bound is that of 16 bits, and 63 + 1 leaves 0 in its field. -/
theorem placementWithoutCarry : Obligations.PlacementWithoutCarry := by
  refine fun n b x y => ⟨packWord_eq_append b x y, packWord_toNat b x y, ?_, fun hy => ?_⟩
  · exact Nat.le_of_lt_succ (packWord b x y).isLt
  · rw [packWord_eq_append, setWidth_add_one_of_toNat_eq_63 hy]

/-- The mask of the field of `f` bits that starts at bit `k`, applied after the shift, does what truncation to the field does before it. -/
theorem shiftLeft_and_fieldMask {n W f k : Nat} {mask : BitVec W}
    (hmask : ∀ i < W, mask.getLsbD i = decide (k ≤ i ∧ i < k + f)) (v : BitVec n) :
    (v.setWidth W <<< k) &&& mask = (v.setWidth f).setWidth W <<< k := by
  refine BitVec.eq_of_getLsbD_eq fun i hi => ?_
  simp only [BitVec.getLsbD_and, BitVec.getLsbD_shiftLeft, BitVec.getLsbD_setWidth, hmask i hi]
  rcases Nat.lt_or_ge i k with hk | hk
  · simp [hk]
  · have field : i < k + f ↔ i - k < f := by omega
    simp [hi, hk, field, show ¬ i < k by omega, show i - k < W by omega, Bool.and_comm]

/-- Truncating a `biome_id` again changes nothing. -/
theorem truncBiome_truncBiome {n : Nat} (b : BitVec n) : truncBiome (truncBiome b) = truncBiome b :=
  BitVec.setWidth_eq _

/-- Truncating a coordinate again changes nothing. -/
theorem truncCoord_truncCoord {n : Nat} (c : BitVec n) : truncCoord (truncCoord c) = truncCoord c :=
  BitVec.setWidth_eq _

section
variable {n : Nat} (W : Nat) (v : BitVec n)

/-- `BIOME_MASK` as a constant of any width, after the shift. -/
theorem shiftLeft_and_biomeMask : (v.setWidth W <<< 12) &&& 0xF000#W = (truncBiome v).setWidth W <<< 12 := by
  refine shiftLeft_and_fieldMask (fun i hi => ?_) v
  rw [show 0xF000#W = biomeMask.setWidth W from BitVec.ofNat_toNat W biomeMask, BitVec.getLsbD_setWidth,
    biomeMask_getLsbD]
  simp [hi, Nat.lt_succ_iff]

/-- `X_MASK` as a constant of any width, after the shift. -/
theorem shiftLeft_and_xMask : (v.setWidth W <<< 6) &&& 0x0FC0#W = (truncCoord v).setWidth W <<< 6 := by
  refine shiftLeft_and_fieldMask (fun i hi => ?_) v
  rw [show 0x0FC0#W = xMask.setWidth W from BitVec.ofNat_toNat W xMask, BitVec.getLsbD_setWidth, xMask_getLsbD]
  simp [hi, Nat.lt_succ_iff]

/-- `Y_MASK` as a constant of any width; `center_y` is not shifted. -/
theorem setWidth_and_yMask : v.setWidth W &&& 0x003F#W = (truncCoord v).setWidth W := by
  have h := shiftLeft_and_fieldMask (W := W) (f := 6) (k := 0) (mask := 0x003F#W) (fun i hi => ?_) v
  · rwa [BitVec.shiftLeft_zero, BitVec.shiftLeft_zero] at h
  · rw [show 0x003F#W = yMask.setWidth W from BitVec.ofNat_toNat W yMask, BitVec.getLsbD_setWidth, yMask_getLsbD]
    simp [hi, Nat.lt_succ_iff]

end

/-- Settles O9: mask after the shift is truncation before it; both is the same with the operand truncated already, which is truncated once. -/
theorem maskOrdersAgree : Obligations.MaskOrdersAgree := by
  refine ⟨fun n W v _ => ⟨shiftLeft_and_biomeMask W v, ?_, shiftLeft_and_xMask W v, ?_, setWidth_and_yMask W v⟩,
    fun n v => BitVec.shiftLeft_eq_zero (by decide)⟩
  · rw [shiftLeft_and_biomeMask, truncBiome_truncBiome]
  · rw [shiftLeft_and_xMask, truncCoord_truncCoord]

/-- Settles O10: `packWord_getLsbD` in the three ranges of bits. -/
theorem encoderIsWiring : Obligations.EncoderIsWiring := by
  refine fun s => ⟨fun i hi => ?_, fun i hi => ?_, fun i hi => ?_⟩ <;> rw [State.encWord, packWord_getLsbD]
  · simp [show ¬ 12 + i < 6 by omega, show 12 + i < 16 by omega]
  · simp [show 6 + i < 12 by omega]
  · simp [hi]

/-- Two words are equal exactly when the operands agree in the bits that are used, at whatever widths they stand. -/
theorem packWord_eq_iff {n m : Nat} {b x y : BitVec n} {b' x' y' : BitVec m} :
    packWord b x y = packWord b' x' y' ↔
      b.toNat % 16 = b'.toNat % 16 ∧ x.toNat % 64 = x'.toNat % 64 ∧ y.toNat % 64 = y'.toNat % 64 := by
  rw [← BitVec.toNat_inj, packWord_toNat, packWord_toNat]
  omega

/-- Settles O11: this is `packWord_eq_iff`. -/
theorem ignoredOperandBits : Obligations.IgnoredOperandBits :=
  fun _ _ _ _ _ _ _ _ => packWord_eq_iff

/-- Settles O13: an ENCODE gives `packWord` of its operands in every state, and the table is a closed fact about it. -/
theorem encodeCornerCases : Obligations.EncodeCornerCases := by
  intro s
  simp only [encodesTo_iff]
  decide

/-- Settles O25: a multiple of 16 or 64 is lost in the remainder, on the ports since both divide 2^16. -/
theorem overflowWraparound : Obligations.OverflowWraparound := by
  refine ⟨by decide, by decide, by decide, by decide, fun b x y k m n => ?_, fun b x y k m n => ?_⟩
  · simp only [packWord_eq_iff, BitVec.toNat_add, BitVec.toNat_mul, BitVec.ofNat_eq_ofNat, BitVec.toNat_ofNat]
    omega
  · apply recordWord_congr
    simp only [normRecord, Nat.add_mul_mod_self_left]

end Sys2Proof.Machine
end

section
/-! SUPPORT. The record by its word: the fields as quotients and remainders, their bits, their range, and the corner cases of DECODE (41_decode.md section 2). -/

namespace Sys2Proof.Machine

theorem selectBiome_toNat (w : PackedWord) : (selectBiome w).toNat = w.toNat / 4096 := by
  rw [selectBiome_eq_extractLsb', BitVec.extractLsb'_toNat, Nat.shiftRight_eq_div_pow]
  omega

theorem selectX_toNat (w : PackedWord) : (selectX w).toNat = w.toNat / 64 % 64 := by
  rw [selectX_eq_extractLsb', BitVec.extractLsb'_toNat, Nat.shiftRight_eq_div_pow]

theorem selectY_toNat (w : PackedWord) : (selectY w).toNat = w.toNat % 64 := by
  rw [selectY_eq_extractLsb', BitVec.extractLsb'_toNat, Nat.shiftRight_zero]

/-- Settles O17: the three fields by their numbers, and the bits that a shift without the mask keeps above `center_x`. -/
theorem decodeByDivision : Obligations.DecodeByDivision := by
  refine fun w => ⟨selectBiome_toNat w, selectX_toNat w, selectY_toNat w, ?_⟩
  rw [unpackWord, selectBiome_toNat, selectX_toNat, BitVec.toNat_ushiftRight, Nat.shiftRight_eq_div_pow]
  omega

/-- Settles O18: each field by its bits. -/
theorem decoderIsWiring : Obligations.DecoderIsWiring := by
  refine fun s => ⟨fun i hi => ?_, fun i hi => ?_, fun i hi => ?_⟩
  · exact (selectBiome_getLsbD s.decWord i).trans (by rw [decide_eq_true hi, Bool.true_and])
  · exact (selectX_getLsbD s.decWord i).trans (by rw [decide_eq_true hi, Bool.true_and])
  · exact (selectY_getLsbD s.decWord i).trans (by rw [decide_eq_true hi, Bool.true_and])

/-- The widths of the decoder ports hold their values in range. -/
theorem inRange_recordOfDecoded (d : DecodedRecord) : inRange (recordOfDecoded d) :=
  ⟨Nat.le_of_lt_succ d.biomeId.isLt, Nat.le_of_lt_succ d.centerX.isLt, Nat.le_of_lt_succ d.centerY.isLt⟩

/-- A consumer that zero-extends the decoder ports sees the same unsigned integers (decision D5). -/
theorem recordOfPorts_zextPort (d : DecodedRecord) :
    recordOfPorts (zextPort d.biomeId) (zextPort d.centerX) (zextPort d.centerY) = recordOfDecoded d := by
  simp only [recordOfPorts, recordOfDecoded, zextPort, BitVec.toNat_setWidth_of_le (show 4 ≤ 16 by decide),
    BitVec.toNat_setWidth_of_le (show 6 ≤ 16 by decide)]

/-- Settles O19: the range and the values of any decoded record. -/
theorem decodedRecordInRange : Obligations.DecodedRecordInRange :=
  fun s => ⟨inRange_recordOfDecoded s.decRecord, recordOfPorts_zextPort s.decRecord⟩

/-- Settles O21: a DECODE gives the fields of its word in every state, and the table is a closed fact about them. -/
theorem decodeCornerCases : Obligations.DecodeCornerCases := by
  intro s
  simp only [decodesTo_iff]
  decide

end Sys2Proof.Machine
end

section
/-! SUPPORT. The words and the in-range records correspond one to one: the word of a decoded record, the reduction of a record, the order of words, and how many operand triples give one word (42_laws.md section 2). -/

namespace Sys2Proof.Machine

/-- The word of the record that a word decodes to is that word. -/
theorem recordWord_recordOfDecoded_unpackWord (w : PackedWord) :
    recordWord (recordOfDecoded (unpackWord w)) = w := by
  apply BitVec.eq_of_toNat_eq
  simp only [recordWord_toNat, recordOfDecoded, unpackWord, selectBiome_toNat, selectX_toNat, selectY_toNat]
  omega

/-- Encoding the zero-extended fields of a word gives the word. -/
theorem packWord_zextPort_unpackWord (w : PackedWord) :
    packWord (zextPort (unpackWord w).biomeId) (zextPort (unpackWord w).centerX)
      (zextPort (unpackWord w).centerY) = w := by
  rw [← recordWord_recordOfPorts, recordOfPorts_zextPort, recordWord_recordOfDecoded_unpackWord]

/-- An in-range record has the word `w` exactly when `w` decodes to it. -/
theorem recordWord_eq_iff {r : ChunkRecord} (hr : inRange r) {w : PackedWord} :
    recordWord r = w ↔ recordOfDecoded (unpackWord w) = r := by
  constructor
  · rintro rfl
    exact (recordOfDecoded_unpackWord_recordWord r).trans (normRecord_of_inRange hr)
  · rintro rfl
    exact recordWord_recordOfDecoded_unpackWord w

/-- No two words decode to one record. -/
theorem unpackWord_injective : Function.Injective unpackWord :=
  Function.LeftInverse.injective (g := fun d => recordWord (recordOfDecoded d)) recordWord_recordOfDecoded_unpackWord

/-- Settles O28: the one in-range record of a word is the one it decodes to. -/
theorem bijectionOnInRangeRecords : Obligations.BijectionOnInRangeRecords := by
  refine ⟨fun w => ⟨recordOfDecoded (unpackWord w), ⟨?_, ?_⟩, ?_⟩, fun _ _ hr => recordWord_eq_iff hr,
    fun _ _ h => unpackWord_injective h⟩
  · exact inRange_recordOfDecoded _
  · exact recordWord_recordOfDecoded_unpackWord w
  · rintro r ⟨hr, hw⟩
    exact ((recordWord_eq_iff hr).mp hw).symm

/-- Settles O27: the encoder inputs are the zero-extended fields of the word. -/
theorem reverseRoundTrip : Obligations.ReverseRoundTrip := by
  refine fun s w => ⟨_, _, exec_decode w s, exec_encode _ _ _ _, ?_⟩
  exact packWord_zextPort_unpackWord w

theorem normRecord_normRecord (r : ChunkRecord) : normRecord (normRecord r) = normRecord r := by
  simp only [normRecord, Nat.mod_mod]

/-- A reduced record is in range, so it changes nothing exactly in range. -/
theorem normRecord_eq_self_iff {r : ChunkRecord} : normRecord r = r ↔ inRange r := by
  refine ⟨fun h => ?_, normRecord_of_inRange⟩
  rw [← h, ← recordOfDecoded_unpackWord_recordWord]
  exact inRange_recordOfDecoded _

/-- Settles O30: the round trip is the reduction, which is idempotent and which the word does not see. -/
theorem normalisationIdempotent : Obligations.NormalisationIdempotent :=
  fun r => ⟨recordOfDecoded_unpackWord_recordWord r, normRecord_normRecord r, normRecord_eq_self_iff,
    recordWord_congr (normRecord_normRecord r)⟩

theorem recordWord_toNat_of_inRange {r : ChunkRecord} (hr : inRange r) :
    (recordWord r).toNat = r.biomeId * 4096 + r.centerX * 64 + r.centerY := by
  obtain ⟨hb, hx, hy⟩ := ChunkRecord.mk.inj (normRecord_of_inRange hr)
  rw [recordWord_toNat, hb, hx, hy]

/-- Settles O31: in range the word is a number with the fields as its digits, which compare from the highest down. -/
theorem wordOrderIsLexicographic : Obligations.WordOrderIsLexicographic := by
  refine ⟨fun r q hr hq => ?_, by decide, by decide⟩
  rw [recordWord_toNat_of_inRange hr, recordWord_toNat_of_inRange hq]
  obtain ⟨-, hrx, hry⟩ := hr
  obtain ⟨-, hqx, hqy⟩ := hq
  omega

/-- Settles O32: the word of the operands is the word of their record, and ports of 7 bits carry what the word sees of any record. -/
theorem portEncodeRefinesRecordEncode : Obligations.PortEncodeRefinesRecordEncode :=
  ⟨fun _ b x y => (recordWord_recordOfPorts b x y).symm,
    fun _ r hn => (recordWord_eq_packWord_ofNat (Nat.le_of_succ_le hn) r).symm⟩

/-- The values of `m + k` bits with given low `k` bits are counted by their high `m` bits. -/
theorem ncard_setWidth_eq (m : Nat) {k : Nat} (low : BitVec k) :
    Set.ncard { v : BitVec (m + k) | v.setWidth k = low } = 2 ^ m := by
  have himage : { v : BitVec (m + k) | v.setWidth k = low } = Set.range fun high : BitVec m => high ++ low := by
    ext v
    constructor
    · rintro rfl
      rw [BitVec.setWidth_eq_extractLsb' (Nat.le_add_left k m)]
      exact ⟨v.extractLsb' k m, BitVec.extractLsb'_append_extractLsb'⟩
    · rintro ⟨high, rfl⟩
      exact BitVec.setWidth_append.trans (by rw [dif_pos le_rfl, BitVec.setWidth_eq])
  have hinj : Function.Injective fun high : BitVec m => high ++ low := fun h h' heq => by
    simpa only [BitVec.extractLsb'_append_eq_left] using congrArg (BitVec.extractLsb' k m) heq
  rw [himage, Set.ncard_range_of_injective hinj, Nat.card_congr BitVec.equivFin.toEquiv, Nat.card_fin]

/-- An operand triple gives the word `w` exactly when its truncated operands are the fields of `w`. -/
theorem packWord_eq_iff_trunc {n : Nat} {b x y : BitVec n} {w : PackedWord} :
    packWord b x y = w ↔ truncBiome b = selectBiome w ∧ truncCoord x = selectX w ∧ truncCoord y = selectY w := by
  rw [← unpackWord_injective.eq_iff, unpackWord_packWord, unpackWord, DecodedRecord.mk.injEq]

/-- Settles O29: the operands that give one word are three independent choices of the ignored 12, 10 and 10 bits. -/
theorem operandTriplesPerWord : Obligations.OperandTriplesPerWord := by
  intro w
  have hprod : { p : PortValue × PortValue × PortValue | packWord p.1 p.2.1 p.2.2 = w } =
      { b | truncBiome b = selectBiome w } ×ˢ { x | truncCoord x = selectX w } ×ˢ { y | truncCoord y = selectY w } :=
    Set.ext fun _ => packWord_eq_iff_trunc
  have hbiome : Set.ncard { b : PortValue | truncBiome b = selectBiome w } = 2 ^ 12 :=
    ncard_setWidth_eq 12 (selectBiome w)
  have hcoord (c : BitVec 6) : Set.ncard { v : PortValue | truncCoord v = c } = 2 ^ 10 := ncard_setWidth_eq 10 c
  rw [hprod, Set.ncard_prod, Set.ncard_prod, hbiome, hcoord, hcoord]
  rfl

end Sys2Proof.Machine
end

section
/-! SUPPORT. The state in which an operation leaves a state, as a function: what it does to the samples, that the two groups do not see each other, and the frames of the two operations (10_state.md section 6). -/

namespace Sys2Proof.Machine

/-- The state in which an operation leaves a state: its own group driven and sampled. -/
def applyOp (s : State) : Instr → State
  | .encode b x y => sampleEncoder (driveEncoder b x y s)
  | .decode w => sampleDecoder (driveDecoder w s)

/-- Every operation completes, in the state that `applyOp` names. -/
theorem exec_eq_applyOp (i : Instr) (s : State) : exec i s = .next (applyOp s i) := by
  cases i with
  | encode b x y => exact exec_encode b x y s
  | decode w => exact exec_decode w s

theorem eq_applyOp_of_exec {i : Instr} {s t : State} (h : exec i s = .next t) : t = applyOp s i :=
  Host.Outcome.next.inj (h.symm.trans (exec_eq_applyOp i s))

@[simp] theorem applyOp_schedule (s : State) (i : Instr) : (applyOp s i).schedule = s.schedule := by
  cases i <;> rfl

theorem encodeResults_encode_cons (b x y : PortValue) (is : List Instr) :
    encodeResults (.encode b x y :: is) = packWord b x y :: encodeResults is := rfl

theorem encodeResults_decode_cons (w : PackedWord) (is : List Instr) :
    encodeResults (.decode w :: is) = encodeResults is := rfl

theorem decodeResults_encode_cons (b x y : PortValue) (is : List Instr) :
    decodeResults (.encode b x y :: is) = decodeResults is := rfl

theorem decodeResults_decode_cons (w : PackedWord) (is : List Instr) :
    decodeResults (.decode w :: is) = unpackWord w :: decodeResults is := rfl

theorem encodeResults_append (is js : List Instr) :
    encodeResults (is ++ js) = encodeResults is ++ encodeResults js :=
  List.filterMap_append ..

theorem decodeResults_append (is js : List Instr) :
    decodeResults (is ++ js) = decodeResults is ++ decodeResults js :=
  List.filterMap_append ..

/-- An ENCODE takes one sample of `enc_word`, a DECODE none. -/
theorem applyOp_encObserved (s : State) (i : Instr) :
    (applyOp s i).encObserved = s.encObserved ++ encodeResults [i] := by
  cases i with
  | encode b x y => rfl
  | decode w => exact (List.append_nil _).symm

/-- A DECODE takes one sample of the decoder outputs, an ENCODE none. -/
theorem applyOp_decObserved (s : State) (i : Instr) :
    (applyOp s i).decObserved = s.decObserved ++ decodeResults [i] := by
  cases i with
  | encode b x y => exact (List.append_nil _).symm
  | decode w => rfl

/-- An ENCODE and a DECODE write different fields, so their order makes no difference (R21). -/
theorem applyOp_encode_decode_comm (s : State) (b x y : PortValue) (w : PackedWord) :
    applyOp (applyOp s (.encode b x y)) (.decode w) = applyOp (applyOp s (.decode w)) (.encode b x y) := rfl

/-- Settles O5: the state of `exec_encode`, with the sampled word as a concatenation. -/
theorem encodeCompletesWithItsEffect : Obligations.EncodeCompletesWithItsEffect := by
  intro s b x y
  rw [exec_encode, ← packWord_eq_append]
  rfl

/-- Settles O15: the state of `exec_decode`, with the sampled fields as slices. -/
theorem decodeCompletesWithItsEffect : Obligations.DecodeCompletesWithItsEffect := by
  intro s w
  rw [exec_decode, ← selectBiome_eq_extractLsb', ← selectX_eq_extractLsb', ← selectY_eq_extractLsb']
  rfl

/-- Settles O6: the encoder's acts leave the decoder group and the schedule, and take one sample. -/
theorem encodeFrame : Obligations.EncodeFrame := by
  intro s t b x y h
  obtain rfl := eq_applyOp_of_exec h
  exact ⟨rfl, rfl, rfl, rfl, rfl, rfl, packWord b x y, rfl⟩

/-- Settles O16: the decoder's acts leave the encoder group and the schedule, and take one sample. -/
theorem decodeFrame : Obligations.DecodeFrame := by
  intro s t w h
  obtain rfl := eq_applyOp_of_exec h
  exact ⟨rfl, rfl, rfl, rfl, rfl, rfl, unpackWord w, rfl⟩

/-- Settles O33: both orders complete, in states that `applyOp_encode_decode_comm` makes one. -/
theorem groupsAreIndependent : Obligations.GroupsAreIndependent := by
  intro s b x y w
  simp only [exec_eq_applyOp, andThen_next, applyOp_encode_decode_comm]

/-- Settles O38: the outputs are functions of the inputs by definition, and their values at zero are closed facts. -/
theorem outputsStandInEveryState : Obligations.OutputsStandInEveryState := by
  refine fun s => ⟨rfl, rfl, fun hb hx hy => ?_, fun hw => ?_⟩
  · rw [State.encWord, hb, hx, hy]
    decide
  · rw [State.decRecord, hw]
    decide

theorem applyOp_applyOp_encWord (s : State) (i : Instr) :
    (applyOp (applyOp s i) i).encWord = (applyOp s i).encWord := by
  cases i <;> rfl

theorem applyOp_applyOp_decRecord (s : State) (i : Instr) :
    (applyOp (applyOp s i) i).decRecord = (applyOp s i).decRecord := by
  cases i <;> rfl

/-- Settles O39: the samples of an operation are its results, the same at each time. -/
theorem repeatedOperationIsIdempotent : Obligations.RepeatedOperationIsIdempotent := by
  intro i s t u ht hu
  obtain rfl := eq_applyOp_of_exec ht
  obtain rfl := eq_applyOp_of_exec hu
  exact ⟨applyOp_applyOp_encWord s i, applyOp_applyOp_decRecord s i, encodeResults [i], decodeResults [i],
    applyOp_encObserved _ i, applyOp_encObserved _ i, applyOp_decObserved _ i, applyOp_decObserved _ i⟩

end Sys2Proof.Machine
end

section
/-! SUPPORT. One step: the presented operation, both groups at one instant, the two loopbacks, the refusal, and the invariant of the duty and the samples (10_state.md R21, 70_reset_and_hazards.md R84). -/

namespace Sys2Proof.Machine

/-- Settles O40: a step presents the stimulus of the operation, which does what the operation does. -/
theorem stepRunsThePresentedOperation : Obligations.StepRunsThePresentedOperation :=
  fun _ i _ hs => (step_of_cons hs).trans (present_stimulusOf i _)

/-- Settles O41: placing the bits schedules the operation first, and taking it off leaves the schedule as it was. -/
theorem stepRunsTheFetchedWord : Obligations.StepRunsTheFetchedWord := by
  intro s nbits w i hdecode
  rw [withFetchWord_of_decode hdecode, step_of_cons rfl, present_stimulusOf]

/-- Settles O42: this is `step_of_nil`. -/
theorem idleStepChangesNothing : Obligations.IdleStepChangesNothing :=
  fun _ => step_of_nil

/-- Settles O57: a stimulus that holds both groups is presented without effect. -/
theorem heldStimulusOnlyMovesOn : Obligations.HeldStimulusOnlyMovesOn :=
  fun _ _ hs => (step_of_cons hs).trans (present_held _)

/-- Both groups driven: each operation is applied (R21). -/
theorem present_bothDriven (b x y : PortValue) (w : PackedWord) (s : State) :
    present ⟨.driven b x y, .driven w⟩ s = .next (applyOp (applyOp s (.encode b x y)) (.decode w)) := rfl

/-- The encoder driven and connected to the decoder: the decoder takes the word of the operands (R84). -/
theorem present_drivenEncoder_intoDecoder (b x y : PortValue) (s : State) :
    present ⟨.driven b x y, .fromEncoder⟩ s =
      .next (applyOp (applyOp s (.encode b x y)) (.decode (packWord b x y))) := rfl

/-- The decoder driven and connected to the encoder: the encoder takes the fields of the word, zero-extended (R84). -/
theorem present_drivenDecoder_intoEncoder (w : PackedWord) (s : State) :
    present ⟨.fromDecoder, .driven w⟩ s =
      .next (applyOp (applyOp s (.decode w))
        (.encode (zextPort (selectBiome w)) (zextPort (selectX w)) (zextPort (selectY w)))) := rfl

/-- Settles O34: the state of `present_bothDriven` shows and records both results. -/
theorem bothGroupsAtOneInstant : Obligations.BothGroupsAtOneInstant :=
  fun _ b x y w _ hs => ⟨_, (step_of_cons hs).trans (present_bothDriven b x y w _), rfl, rfl, rfl, rfl, rfl⟩

/-- Settles O35: the decoder reads the word of the encoder inputs, which decodes to their reduced record. -/
theorem encoderIntoDecoder : Obligations.EncoderIntoDecoder := by
  refine ⟨fun s b x y rest hs => ⟨_, (step_of_cons hs).trans (present_drivenEncoder_intoDecoder b x y _),
    rfl, rfl, rfl, rfl, rfl, rfl, rfl, ?_, rfl⟩, fun s rest hs => ⟨_,
    (step_of_cons hs).trans (present_heldEncoder_intoDecoder _), rfl, rfl, rfl, rfl, rfl, rfl, rfl, ?_, rfl⟩⟩
  · exact recordOfDecoded_unpackWord_packWord b x y
  · exact recordOfDecoded_unpackWord_packWord s.encBiomeId s.encCenterX s.encCenterY

/-- Settles O36: the encoder reads the fields of the word on `dec_word`, whose word is that word. -/
theorem decoderIntoEncoder : Obligations.DecoderIntoEncoder := by
  refine ⟨fun s w rest hs => ⟨_, (step_of_cons hs).trans (present_drivenDecoder_intoEncoder w _),
    rfl, rfl, rfl, rfl, rfl, rfl, rfl, ?_, rfl⟩, fun s rest hs => ⟨_,
    (step_of_cons hs).trans (present_heldDecoder_intoEncoder _), rfl, rfl, rfl, rfl, rfl, rfl, rfl, ?_, rfl⟩⟩
  · exact packWord_zextPort_unpackWord w
  · exact packWord_zextPort_unpackWord s.decWord

/-- A well-formed stimulus completes, and keeps what driving and sampling either group keeps. -/
theorem present_keeps {Inv : State → Prop}
    (henc : ∀ s b x y, Inv s → Inv (sampleEncoder (driveEncoder b x y s)))
    (hdec : ∀ s w, Inv s → Inv (sampleDecoder (driveDecoder w s)))
    {st : Stimulus} (hst : st.wellFormed = true) {s : State} (hs : Inv s) :
    ∃ t, present st s = .next t ∧ Inv t := by
  have enc (src : EncSource) (u : State) (hu : Inv u) : ∃ t, presentEncoder src u = .next t ∧ Inv t := by
    rcases presentEncoder_cases src u with h | ⟨b, x, y, h⟩
    · exact ⟨u, h, hu⟩
    · exact ⟨_, h, henc u b x y hu⟩
  have dec (src : DecSource) (u : State) (hu : Inv u) : ∃ t, presentDecoder src u = .next t ∧ Inv t := by
    rcases presentDecoder_cases src u with h | ⟨w, h⟩
    · exact ⟨u, h, hu⟩
    · exact ⟨_, h, hdec u w hu⟩
  rcases present_of_wellFormed hst s with h | h
  · obtain ⟨u, hu, hInv⟩ := dec st.decoder s hs
    rw [h, hu, andThen_next]
    exact enc st.encoder u hInv
  · obtain ⟨u, hu, hInv⟩ := enc st.encoder s hs
    rw [h, hu, andThen_next]
    exact dec st.decoder u hInv

/-- A well-formed stimulus completes and leaves the schedule. -/
theorem present_completes {st : Stimulus} (hst : st.wellFormed = true) (s : State) :
    ∃ t, present st s = .next t ∧ t.schedule = s.schedule :=
  present_keeps (Inv := fun t => t.schedule = s.schedule) (fun _ _ _ _ h => h) (fun _ _ h => h) hst rfl

/-- A step completes, or its stimulus is the double loopback and is refused. -/
theorem step_next_or_refused (s : State) :
    (∃ t, step s = .next t) ∨
    (∃ rest, s.schedule = ⟨.fromDecoder, .fromEncoder⟩ :: rest) ∧ step s = .refused .combinationalLoop := by
  cases hs : s.schedule with
  | nil => exact .inl ⟨s, step_of_nil hs⟩
  | cons st rest =>
    rw [step_of_cons hs]
    cases hst : st.wellFormed with
    | true =>
      obtain ⟨t, ht, -⟩ := present_completes hst { s with schedule := rest }
      exact .inl ⟨t, ht⟩
    | false =>
      obtain ⟨rfl, href⟩ := present_of_not_wellFormed hst { s with schedule := rest }
      exact .inr ⟨⟨rest, rfl⟩, href⟩

/-- Settles O37: the two cases of `step_next_or_refused`, and no fault exists. -/
theorem onlyTheDoubleLoopbackIsRefused : Obligations.OnlyTheDoubleLoopbackIsRefused := by
  refine ⟨fun s r => ⟨fun h => ?_, ?_⟩, fun _ f => nomatch f⟩
  · rcases step_next_or_refused s with ⟨t, ht⟩ | ⟨hs, href⟩
    · cases ht.symm.trans h
    · exact ⟨Host.Outcome.refused.inj (h.symm.trans href), hs⟩
  · rintro ⟨rfl, rest, hs⟩
    exact (step_of_cons hs).trans (present_of_not_wellFormed rfl _).2

/-- Under the duty a step completes and takes one stimulus off the schedule. -/
theorem step_completes {s : State} (hok : scheduleOk s) : ∃ t, step s = .next t ∧ t.schedule = s.schedule.tail := by
  cases hs : s.schedule with
  | nil => exact ⟨s, step_of_nil hs, hs⟩
  | cons st rest =>
    have hst : st.wellFormed = true := hok st (hs ▸ List.mem_cons_self)
    rw [step_of_cons hs]
    exact present_completes hst { s with schedule := rest }

/-- Settles O43: what is left of a schedule that keeps the duty keeps it. -/
theorem stepsCompleteUnderTheDuty : Obligations.StepsCompleteUnderTheDuty := by
  intro s hok
  obtain ⟨t, ht, htail⟩ := step_completes hok
  exact ⟨t, ht, htail, fun st hst => hok st (List.mem_of_mem_tail (htail ▸ hst))⟩

/-- Driving and sampling the encoder keeps the samples standing: the new one is what `enc_word` shows. -/
theorem samplesStand_sampleEncoder (s : State) (b x y : PortValue) (hs : samplesStand s) :
    samplesStand (sampleEncoder (driveEncoder b x y s)) := by
  refine ⟨fun w hw => ?_, hs.right⟩
  simpa using hw.symm

/-- Driving and sampling the decoder keeps the samples standing: the new one is what its outputs show. -/
theorem samplesStand_sampleDecoder (s : State) (w : PackedWord) (hs : samplesStand s) :
    samplesStand (sampleDecoder (driveDecoder w s)) := by
  refine ⟨hs.left, fun d hd => ?_⟩
  simpa using hd.symm

/-- A step that answers a next state keeps the samples standing. -/
theorem step_keeps_samplesStand {s t : State} (hs : samplesStand s) (h : step s = .next t) : samplesStand t := by
  rcases step_next h with ⟨-, rfl⟩ | ⟨st, rest, -, hst, hp⟩
  · exact hs
  · obtain ⟨u, hu, hstand⟩ :=
      present_keeps samplesStand_sampleEncoder samplesStand_sampleDecoder hst (s := { s with schedule := rest }) hs
    exact Host.Outcome.next.inj (hu.symm.trans hp) ▸ hstand

/-- Settles O44: the duty by `stepsCompleteUnderTheDuty`, the samples by `step_keeps_samplesStand`. -/
theorem everyStepKeepsTheDutyAndTheSamples : Obligations.EveryStepKeepsTheDutyAndTheSamples := by
  intro s t hok hsamples h
  obtain ⟨u, hu, -, hokNext⟩ := stepsCompleteUnderTheDuty s hok
  exact ⟨Host.Outcome.next.inj (hu.symm.trans h) ▸ hokNext, step_keeps_samplesStand hsamples h⟩

/-- Settles O45: nothing is scheduled and nothing has been sampled. -/
theorem resetMeetsTheDutyAndTheSamples : Obligations.ResetMeetsTheDutyAndTheSamples := by
  refine ⟨fun _ hst => absurd hst List.not_mem_nil, fun _ hw => ?_, fun _ hd => ?_⟩
  · cases hw
  · cases hd

end Sys2Proof.Machine
end

section
/-! SUPPORT. Runs of the whole schedule: under the duty a run reaches its end, a run of operations alone ends where their effects one after another lead, and their interleaving makes no difference (20_memory.md section 2, 92_eei_decisions.md D20). -/

namespace Sys2Proof.Machine

/-- Under the duty, as many steps as the schedule is long use it up. -/
theorem run_schedule_completes {l : List Stimulus} :
    ∀ {s : State}, s.schedule = l → scheduleOk s → ∃ t, run l.length s = .next t ∧ t.schedule = [] := by
  induction l with
  | nil => exact fun hs _ => ⟨_, run_zero _, hs⟩
  | cons st rest ih =>
    intro s hs hok
    obtain ⟨u, hu, htail, hokNext⟩ := stepsCompleteUnderTheDuty s hok
    rw [List.length_cons, run_succ, hu, andThen_next]
    exact ih (by rw [htail, hs, List.tail_cons]) hokNext

/-- Settles O46: the run completes, and keeps what every step keeps. -/
theorem scheduleRunsToItsEnd : Obligations.ScheduleRunsToItsEnd := by
  intro s hok
  obtain ⟨t, ht, hend⟩ := run_schedule_completes rfl hok
  refine ⟨t, ht, hend, fun hsamples => ?_⟩
  have hkept := run_keeps (Inv := fun u => scheduleOk u ∧ samplesStand u)
    (fun u v hu huv => everyStepKeepsTheDutyAndTheSamples u v hu.left hu.right huv) _ s t ⟨hok, hsamples⟩ ht
  exact hkept.right

/-- An operation does not see what is scheduled, so the schedule may as well be replaced before it. -/
theorem applyOp_setSchedule (s : State) (i : Instr) (before after : List Stimulus) :
    { applyOp { s with schedule := before } i with schedule := after } =
      applyOp { s with schedule := after } i := by
  cases i <;> rfl

/-- A run of operations, each presented alone, ends where their effects one after another lead. -/
theorem run_map_stimulusOf {is : List Instr} :
    ∀ {s : State}, s.schedule = is.map stimulusOf →
      run is.length s = .next (is.foldl applyOp { s with schedule := [] }) := by
  induction is with
  | nil =>
    intro s hs
    rw [List.length_nil, run_zero, List.foldl_nil, ← List.map_nil (f := stimulusOf), ← hs]
  | cons i is ih =>
    intro s hs
    rw [List.length_cons, run_succ, stepRunsThePresentedOperation s i _ hs, exec_eq_applyOp, andThen_next,
      ih (applyOp_schedule _ i), List.foldl_cons, applyOp_setSchedule]

@[simp] theorem foldl_applyOp_schedule (is : List Instr) (s : State) :
    (is.foldl applyOp s).schedule = s.schedule := by
  induction is generalizing s with
  | nil => rfl
  | cons i is ih => rw [List.foldl_cons, ih, applyOp_schedule]

@[simp] theorem foldl_applyOp_encObserved (is : List Instr) (s : State) :
    (is.foldl applyOp s).encObserved = s.encObserved ++ encodeResults is := by
  induction is generalizing s with
  | nil => exact (List.append_nil _).symm
  | cons i is ih =>
    rw [List.foldl_cons, ih, applyOp_encObserved, List.append_assoc, ← encodeResults_append, List.singleton_append]

@[simp] theorem foldl_applyOp_decObserved (is : List Instr) (s : State) :
    (is.foldl applyOp s).decObserved = s.decObserved ++ decodeResults is := by
  induction is generalizing s with
  | nil => exact (List.append_nil _).symm
  | cons i is ih =>
    rw [List.foldl_cons, ih, applyOp_decObserved, List.append_assoc, ← decodeResults_append, List.singleton_append]

/-- Settles O47: the run ends in the effects one after another, each of which appends its own result. -/
theorem everyOperationGivesItsOwnResult : Obligations.EveryOperationGivesItsOwnResult :=
  fun _ is hs => ⟨_, run_map_stimulusOf hs, foldl_applyOp_schedule is _, foldl_applyOp_encObserved is _,
    foldl_applyOp_decObserved is _⟩

/-- A DECODE can be moved behind ENCODEs. -/
theorem foldl_filter_isEncode_applyOp_decode (is : List Instr) (s : State) (w : PackedWord) :
    (is.filter isEncode).foldl applyOp (applyOp s (.decode w)) =
      applyOp ((is.filter isEncode).foldl applyOp s) (.decode w) := by
  induction is generalizing s with
  | nil => rfl
  | cons i is ih =>
    cases i with
    | encode b x y =>
      rw [List.filter_cons_of_pos rfl, List.foldl_cons, List.foldl_cons, ← applyOp_encode_decode_comm, ih]
    | decode v => rw [List.filter_cons_of_neg Bool.false_ne_true, ih]

/-- The effects of operations in any order are those of the ENCODEs and then those of the DECODEs. -/
theorem foldl_applyOp_eq_encodes_then_decodes (is : List Instr) (s : State) :
    is.foldl applyOp s =
      (is.filter fun i => !isEncode i).foldl applyOp ((is.filter isEncode).foldl applyOp s) := by
  induction is generalizing s with
  | nil => rfl
  | cons i is ih =>
    rw [List.foldl_cons, ih]
    cases i with
    | encode b x y => rw [List.filter_cons_of_pos rfl, List.filter_cons_of_neg Bool.false_ne_true, List.foldl_cons]
    | decode w =>
      rw [List.filter_cons_of_neg Bool.false_ne_true, List.filter_cons_of_pos rfl, List.foldl_cons,
        foldl_filter_isEncode_applyOp_decode]

/-- Settles O48: both runs end in the effects of the same ENCODEs and then the same DECODEs. -/
theorem interleavingDoesNotMatter : Obligations.InterleavingDoesNotMatter := by
  intro s t u is js henc hdec ht hu
  have hti := Host.Outcome.next.inj (ht.symm.trans (run_map_stimulusOf rfl))
  have huj := Host.Outcome.next.inj (hu.symm.trans (run_map_stimulusOf rfl))
  rw [hti, huj, foldl_applyOp_eq_encodes_then_decodes is, foldl_applyOp_eq_encodes_then_decodes js, henc, hdec]

end Sys2Proof.Machine
end

section
/-! SUPPORT. The environment's use of the block: the row-major traversal of a grid by its rows, and the schedules of packing and unpacking as lists of operations (20_memory.md section 3). -/

namespace Sys2Proof.Machine

section
variable {α : Type} (width height : Nat) (cell : Nat → Nat → α)

/-- One more row comes after the rows before it. -/
theorem rowMajor_succ :
    rowMajor width (height + 1) cell = rowMajor width height cell ++ (List.range width).map fun x => cell x height := by
  simp only [rowMajor, List.range_succ, List.flatMap_append, List.flatMap_singleton]

theorem rowMajor_length : (rowMajor width height cell).length = width * height := by
  induction height with
  | zero => rfl
  | succ h ih => rw [rowMajor_succ, List.length_append, ih, List.length_map, List.length_range, Nat.mul_succ]

variable {width height} {x y : Nat}

/-- A cell stands in its row, after the rows before it. -/
theorem rowMajor_getElem? (hx : x < width) (hy : y < height) :
    (rowMajor width height cell)[x + y * width]? = some (cell x y) := by
  induction height with
  | zero => exact absurd hy (Nat.not_lt_zero y)
  | succ h ih =>
    rw [rowMajor_succ]
    rcases Nat.lt_succ_iff_lt_or_eq.mp hy with hlt | rfl
    · have hbefore : x + y * width < (rowMajor width h cell).length := by
        calc x + y * width < (y + 1) * width := by rw [Nat.succ_mul]; omega
          _ ≤ h * width := Nat.mul_le_mul_right width hlt
          _ = (rowMajor width h cell).length := by rw [rowMajor_length, Nat.mul_comm]
      rw [List.getElem?_append_left hbefore, ih hlt]
    · have hrow : (rowMajor width y cell).length = y * width := by rw [rowMajor_length, Nat.mul_comm]
      rw [List.getElem?_append_right (hrow ▸ Nat.le_add_left ..), hrow, Nat.add_sub_cancel, List.getElem?_map,
        List.getElem?_range hx, Option.map_some]

end

/-- Settles O49: the length and the place of a cell, by induction over the rows. -/
theorem rowMajorPlace : Obligations.RowMajorPlace :=
  fun width height cell => ⟨rowMajor_length width height cell, fun _ _ => rowMajor_getElem? cell⟩

/-- The ENCODE of a record, each field as far as the port carries it. -/
def encodeOfRecord (r : ChunkRecord) : Instr :=
  .encode (BitVec.ofNat 16 r.biomeId) (BitVec.ofNat 16 r.centerX) (BitVec.ofNat 16 r.centerY)

theorem packSchedule_eq (rs : List ChunkRecord) : packSchedule rs = (rs.map encodeOfRecord).map stimulusOf := by
  rw [List.map_map]
  rfl

theorem unpackSchedule_eq (ws : List PackedWord) : unpackSchedule ws = (ws.map Instr.decode).map stimulusOf := by
  rw [List.map_map]
  rfl

/-- The ports carry all that the word sees of a record, so packing gives the words of the records. -/
theorem encodeResults_map_encodeOfRecord (rs : List ChunkRecord) :
    encodeResults (rs.map encodeOfRecord) = rs.map recordWord := by
  induction rs with
  | nil => rfl
  | cons r rs ih =>
    rw [List.map_cons, List.map_cons, encodeOfRecord, encodeResults_encode_cons, ih,
      recordWord_eq_packWord_ofNat (show 6 ≤ 16 by decide)]

theorem decodeResults_map_encodeOfRecord (rs : List ChunkRecord) : decodeResults (rs.map encodeOfRecord) = [] := by
  induction rs with
  | nil => rfl
  | cons r rs ih => rw [List.map_cons, encodeOfRecord, decodeResults_encode_cons, ih]

theorem encodeResults_map_decode (ws : List PackedWord) : encodeResults (ws.map Instr.decode) = [] := by
  induction ws with
  | nil => rfl
  | cons w ws ih => rw [List.map_cons, encodeResults_decode_cons, ih]

theorem decodeResults_map_decode (ws : List PackedWord) :
    decodeResults (ws.map Instr.decode) = ws.map unpackWord := by
  induction ws with
  | nil => rfl
  | cons w ws ih => rw [List.map_cons, List.map_cons, decodeResults_decode_cons, ih]

/-- Unpacking the words of records gives the records reduced. -/
theorem map_recordOfDecoded_unpackWord_recordWord (rs : List ChunkRecord) :
    ((rs.map recordWord).map unpackWord).map recordOfDecoded = rs.map normRecord := by
  rw [List.map_map, List.map_map]
  exact List.map_congr_left fun r _ => recordOfDecoded_unpackWord_recordWord r

/-- Settles O50: a run of one ENCODE for each record and one DECODE for each word, each of which gives its own result. -/
theorem gridPacksAndUnpacks : Obligations.GridPacksAndUnpacks := by
  rintro s width height cell _ rfl hs
  rw [packSchedule_eq, unpackSchedule_eq, ← List.map_append] at hs
  obtain ⟨t, ht, hend, henc, hdec⟩ := everyOperationGivesItsOwnResult s _ hs
  rw [encodeResults_append, encodeResults_map_encodeOfRecord, encodeResults_map_decode, List.append_nil] at henc
  rw [decodeResults_append, decodeResults_map_encodeOfRecord, decodeResults_map_decode, List.nil_append] at hdec
  refine ⟨t, ?_, hend, henc, ?_⟩
  · simpa only [List.length_append, List.length_map, rowMajor_length, ← Nat.two_mul] using ht
  · rw [hdec, List.map_append, map_recordOfDecoded_unpackWord_recordWord]

end Sys2Proof.Machine
end

section
/-! SUPPORT. The stimulus of an operation as bytes: a word as two bytes, the formats told by their lengths, and the host's bits (20_memory.md R23, 30_encoding.md R37 to R39). -/

namespace Sys2Proof.Machine

/-- Joining the two bytes of a word gives the word. -/
theorem wordOfBytes_extractLsb' (w : PackedWord) : wordOfBytes (w.extractLsb' 0 8) (w.extractLsb' 8 8) = w :=
  BitVec.extractLsb'_append_extractLsb' (w := 8) (len := 8)

/-- The bytes of a joined word are the two that were joined. -/
theorem bytesOfWord_wordOfBytes (low high : Byte) : bytesOfWord (wordOfBytes low high) = [low, high] := by
  rw [bytesOfWord, wordOfBytes, BitVec.extractLsb'_append_eq_left, BitVec.extractLsb'_append_eq_right]

/-- A slice within a slice is a slice of the whole. -/
theorem extractLsb'_of_slice {n : Nat} (v : BitVec n) {s len start k : Nat} (h : start + k ≤ len) :
    (v.extractLsb' s len).extractLsb' start k = v.extractLsb' (s + start) k := by
  refine BitVec.eq_of_getLsbD_eq fun i hi => ?_
  simp only [BitVec.getLsbD_extractLsb', show start + i < len by omega, decide_true, Bool.true_and, Nat.add_assoc]

/-- Settles O51: the fields and the bytes are slices of the word, and the joined bytes are it by `wordOfBytes_extractLsb'`. -/
theorem serialisedLowByteFirst : Obligations.SerialisedLowByteFirst := by
  refine fun w => ⟨_, _, rfl, ?_, ?_, ?_, ?_, wordOfBytes_extractLsb' w⟩
  · rw [unpackWord, selectY_eq_extractLsb', extractLsb'_of_slice w (by decide)]
  · rw [unpackWord, selectX_eq_extractLsb', extractLsb'_of_slice w (by decide), extractLsb'_of_slice w (by decide)]
  · rw [unpackWord, selectX_eq_extractLsb', extractLsb'_of_slice w (by decide), extractLsb'_of_slice w (by decide)]
  · rw [unpackWord, selectBiome_eq_extractLsb', extractLsb'_of_slice w (by decide)]

/-- Settles O52: each port value is joined from its own bytes. -/
theorem stimulusDecodeOfEncode : Obligations.StimulusDecodeOfEncode := by
  intro i _
  cases i with
  | encode b x y =>
    show Except.ok (Instr.encode (wordOfBytes _ _) (wordOfBytes _ _) (wordOfBytes _ _)) = _
    simp only [wordOfBytes_extractLsb']
  | decode w => exact congrArg (fun v => Except.ok (Instr.decode v)) (wordOfBytes_extractLsb' w)

/-- What a byte string can be: the stimulus of a DECODE, that of an ENCODE, or of no format. -/
theorem decodeStimulus_cases (bs : List Byte) :
    (bs.length = 2 ∧ ∃ w, decodeStimulus bs = .ok (.decode w) ∧ bs = encodeStimulus (.decode w)) ∨
    (bs.length = 6 ∧ ∃ b x y, decodeStimulus bs = .ok (.encode b x y) ∧ bs = encodeStimulus (.encode b x y)) ∨
    (bs.length ≠ 2 ∧ bs.length ≠ 6 ∧ decodeStimulus bs = .error (.noSuchFormat bs.length)) := by
  match bs with
  | [w0, w1] => exact .inl ⟨rfl, _, rfl, (bytesOfWord_wordOfBytes w0 w1).symm⟩
  | [b0, b1, x0, x1, y0, y1] =>
    refine .inr (.inl ⟨rfl, _, _, _, rfl, ?_⟩)
    simp only [encodeStimulus, bytesOfWord_wordOfBytes, List.cons_append, List.nil_append]
  | [] => exact .inr (.inr ⟨by decide, by decide, rfl⟩)
  | [_] | [_, _, _] | [_, _, _, _] | [_, _, _, _, _] => exact .inr (.inr ⟨nofun, nofun, rfl⟩)
  | _ :: _ :: _ :: _ :: _ :: _ :: _ :: _ => exact .inr (.inr ⟨nofun, nofun, rfl⟩)

/-- Settles O53: in both cases of `decodeStimulus_cases` that answer an operation the bytes are its stimulus. -/
theorem stimulusEncodeOfDecode : Obligations.StimulusEncodeOfDecode := by
  intro bs i h
  rcases decodeStimulus_cases bs with ⟨-, w, hdec, hbs⟩ | ⟨-, b, x, y, hdec, hbs⟩ | ⟨-, -, hrej⟩
  · exact Except.ok.inj (hdec.symm.trans h) ▸ hbs.symm
  · exact Except.ok.inj (hdec.symm.trans h) ▸ hbs.symm
  · cases hrej.symm.trans h

/-- Settles O54: the lengths of the three cases of `decodeStimulus_cases` exclude each other. -/
theorem formatToldByLength : Obligations.FormatToldByLength := by
  intro bs
  rcases decodeStimulus_cases bs with ⟨hlen, w, hdec, -⟩ | ⟨hlen, b, x, y, hdec, -⟩ | ⟨h2, h6, hrej⟩
  · simp [hdec, hlen]
  · simp [hdec, hlen]
  · simp [hrej, h2, h6, eq_comm]

/-- Settles O55: each stimulus is evaluated. -/
theorem writtenOutStimuli : Obligations.WrittenOutStimuli :=
  ⟨rfl, rfl, rfl, rfl⟩

/-- Two bytes of a number, joined, are its low 16 bits. -/
theorem wordOfBytes_ofNat (n : Nat) : wordOfBytes (BitVec.ofNat 8 n) (BitVec.ofNat 8 (n / 256)) = BitVec.ofNat 16 n := by
  apply BitVec.eq_of_toNat_eq
  rw [wordOfBytes, toNat_append_eq_add]
  simp only [BitVec.toNat_ofNat]
  omega

/-- Two bytes of a number are the DECODE of its low 16 bits. -/
theorem decodeStimulus_bytesOfNat_two (n : Nat) :
    decodeStimulus (bytesOfNat 2 n) = .ok (.decode (BitVec.ofNat 16 n)) :=
  congrArg (fun w => Except.ok (Instr.decode w)) (wordOfBytes_ofNat n)

/-- Six bytes of a number are the ENCODE of its three groups of 16 bits, the lowest first. -/
theorem decodeStimulus_bytesOfNat_six (n : Nat) :
    decodeStimulus (bytesOfNat 6 n) =
      .ok (.encode (BitVec.ofNat 16 n) (BitVec.ofNat 16 (n / 256 / 256))
        (BitVec.ofNat 16 (n / 256 / 256 / 256 / 256))) := by
  simp only [← wordOfBytes_ofNat]
  rfl

/-- Settles O56: the bytes of the number are the port values, since each lies below 2^16. -/
theorem tableWordsDecode : Obligations.TableWordsDecode := by
  refine ⟨fun w => ?_, fun b x y => ?_⟩
  · show (decodeStimulus (bytesOfNat 2 _)).toOption = _
    rw [decodeStimulus_bytesOfNat_two, Nat.mod_eq_of_lt w.isLt, BitVec.ofNat_toNat, BitVec.setWidth_eq]
    rfl
  · show (decodeStimulus (bytesOfNat 6 _)).toOption = _
    have hb : BitVec.ofNat 16 ((b.toNat + x.toNat * 2 ^ 16 + y.toNat * 2 ^ 32) % 2 ^ 48) = b :=
      BitVec.eq_of_toNat_eq (by rw [BitVec.toNat_ofNat]; omega)
    have hx : BitVec.ofNat 16 ((b.toNat + x.toNat * 2 ^ 16 + y.toNat * 2 ^ 32) % 2 ^ 48 / 256 / 256) = x :=
      BitVec.eq_of_toNat_eq (by rw [BitVec.toNat_ofNat]; omega)
    have hy : BitVec.ofNat 16 ((b.toNat + x.toNat * 2 ^ 16 + y.toNat * 2 ^ 32) % 2 ^ 48 / 256 / 256 / 256 / 256) = y :=
      BitVec.eq_of_toNat_eq (by rw [BitVec.toNat_ofNat]; omega)
    rw [decodeStimulus_bytesOfNat_six, hb, hx, hy]
    rfl

end Sys2Proof.Machine
end
